-- ==== Sys2Proof/Word.lean ====
section
/-! DEFINITION. The word types of the engine: what the spec treats as bits (spec/00_scope.md R9 to R11). -/

namespace Sys2Proof

/-- A byte, 8 bits (R9). -/
abbrev Byte := BitVec 8

/-- A general register's 32 bits (R7 `XLEN`, R20); read as a number it is `BitVec.toInt` (R11). -/
abbrev Word := BitVec 32

/-- A byte offset into the code buffer as `pc` holds it: `PCW` = 32 bits, unsigned (R8, R23). -/
abbrev Addr := BitVec 32

/-- The 16-bit immediate of `Load` (R7 `IMMW`, R80). -/
abbrev Imm := BitVec 16

/-- The number of a general register: one of the `NREGS` = 32 that exist (R7, R20, R22). -/
abbrev RegIdx := Fin 32

end Sys2Proof
end

