-- ==== Sys2Proof/Config.lean ====
section
/-! DEFINITION. The parameters of spec/00_scope.md R8, and the opcode names they speak of (spec/30_encoding.md R76).
Every one of R8's open parameters is plain data, so that every statement about a state holds for each of its values. -/

namespace Sys2Proof

/-- The 17 opcodes of R76. `Bad` is not among them: it is no opcode but what an unassigned byte decodes to (R77). -/
inductive Opcode where
  | load | add | sub | mul | div | jump | jumpF | jumpB
  | eq | notEq | greater | less | greaterEq | lessEq | jumpEq | jumpNeq | halt
deriving DecidableEq, Repr

/-- What `Decode` gives a byte (R77): one of the 17 opcodes, or the explicit sentinel `Bad` (R96). -/
inductive OpId where
  | assigned (op : Opcode)
  | bad
deriving DecidableEq, Repr

/-- The 16 opcodes whose byte the parameter `OPMAP` gives, in the row order of R76 (all but `Halt`). -/
def Opcode.mapped : List Opcode :=
  [.load, .add, .sub, .mul, .div, .jump, .jumpF, .jumpB] ++
  [.eq, .notEq, .greater, .less, .greaterEq, .lessEq, .jumpEq, .jumpNeq]

/-- All 17 opcodes. -/
def Opcode.all : List Opcode := Opcode.mapped ++ [.halt]

/-- `HALT_CODE` (R7): the byte of `Halt`. -/
def haltCode : Byte := 254

/-- `PCW`'s upper bound 2^32 − 1 (R8): the greatest offset `pc` can hold. -/
def maxPc : Nat := 4294967295

/-- `OVERFLOW_POLICY` (R8): what an arithmetic result outside −2^31 to 2^31 − 1 does (R123). -/
inductive OverflowPolicy where
  | wrap
  | fault
deriving DecidableEq, Repr

/-- `JUMPNEQ_POLICY` (R8): what executing `JumpNeq` does (R151). -/
inductive JumpNeqPolicy where
  | bad
  | mirror
deriving DecidableEq, Repr

/-- The five open parameters of R8. `opmap` is `OPMAP` read from the byte side: the opcode at position k has byte k.
`PCW` has 32 as its only legal value and is fixed in `Addr`. -/
structure Params where
  codeCap  : Nat
  opmap    : List Opcode
  overflow : OverflowPolicy
  jumpNeq  : JumpNeqPolicy
  padByte  : Byte
deriving DecidableEq, Repr

end Sys2Proof
end

