-- ==== Sys2Proof/Syntax.lean ====
section
/-! DEFINITION. The instructions: one constructor per row of spec/opcode_table.json (spec/30_encoding.md R71 to R76). -/

namespace Sys2Proof

/-- One instruction with its operand bytes. A register operand is the whole byte, 0 to 255 (R22, R81): an index of 32 or
more is a legal operand byte that faults when it is taken (R54), so it is kept as a byte. The pad byte of a comparison is
kept too, although no meaning reads its value (R75). `bad o` is the execution of the unassigned byte `o` (R161). -/
inductive Instr where
  | load (r : Byte) (imm : Imm)
  | add (a b d : Byte)
  | sub (a b d : Byte)
  | mul (a b d : Byte)
  | div (a b d : Byte)
  | jump (r : Byte)
  | jumpF (r : Byte)
  | jumpB (r : Byte)
  | eq (a b pad : Byte)
  | notEq (a b pad : Byte)
  | greater (a b pad : Byte)
  | less (a b pad : Byte)
  | greaterEq (a b pad : Byte)
  | lessEq (a b pad : Byte)
  | jumpEq (r : Byte)
  | jumpNeq (r : Byte)
  | halt
  | bad (o : Byte)
deriving DecidableEq, Repr

end Sys2Proof
end

