-- ==== Sys2Proof/WellFormed.lean ====
section
/-! DEFINITION. When an instruction is one the encoding can produce, when its register operands name registers, and when
the parameters are legal. -/

namespace Sys2Proof

/-- The byte is one of the 239 values of R77 that no opcode has: 16 to 253, or 255. -/
def Byte.unassigned (o : Byte) : Bool := decide (16 ≤ o.toNat ∧ o ≠ haltCode)

/-- The instruction stands for bytes of the encoding. Every operand byte may hold every value (R85), so the only check is
that the byte of `bad` is an unassigned one (R161). -/
def Instr.wellFormed : Instr → Bool
  | .load _ _ => true
  | .add _ _ _ => true
  | .sub _ _ _ => true
  | .mul _ _ _ => true
  | .div _ _ _ => true
  | .jump _ => true
  | .jumpF _ => true
  | .jumpB _ => true
  | .eq _ _ _ => true
  | .notEq _ _ _ => true
  | .greater _ _ _ => true
  | .less _ _ _ => true
  | .greaterEq _ _ _ => true
  | .lessEq _ _ _ => true
  | .jumpEq _ => true
  | .jumpNeq _ => true
  | .halt => true
  | .bad o => Byte.unassigned o

/-- The register-index bytes of an instruction, in positional order (R71 to R75). -/
def Instr.regBytes : Instr → List Byte
  | .load r _ => [r]
  | .add a b d => [a, b, d]
  | .sub a b d => [a, b, d]
  | .mul a b d => [a, b, d]
  | .div a b d => [a, b, d]
  | .jump r => [r]
  | .jumpF r => [r]
  | .jumpB r => [r]
  | .eq a b _ => [a, b]
  | .notEq a b _ => [a, b]
  | .greater a b _ => [a, b]
  | .less a b _ => [a, b]
  | .greaterEq a b _ => [a, b]
  | .lessEq a b _ => [a, b]
  | .jumpEq r => [r]
  | .jumpNeq r => [r]
  | .halt => []
  | .bad _ => []

/-- Every register operand names one of the 32 registers (R22). -/
def Instr.regsNamed (i : Instr) : Bool := i.regBytes.all fun b => decide (b.toNat < 32)

/-- `OPMAP` is legal (R8): an injective map of the 16 opcodes other than `Halt` onto the bytes 0 to 15, `Load` at 0. -/
abbrev OpMapLegal (m : List Opcode) : Prop := m.Perm Opcode.mapped ∧ m.head? = some .load

/-- The parameters have legal values (R8): `CODE_CAP` from 1 to 2^PCW − 1, `OPMAP` legal; the others may be anything. -/
abbrev Params.Legal (p : Params) : Prop := 1 ≤ p.codeCap ∧ p.codeCap ≤ maxPc ∧ OpMapLegal p.opmap

end Sys2Proof
end

