-- ==== Sys2Proof/Decode.lean ====
section
/-! DEFINITION. Decoding and encoding (spec/30_encoding.md R70 to R86): total on every byte, rejecting by name. -/

namespace Sys2Proof

/-- R8 and R76: the default `OPMAP`, the row order of the source's table (the spec's decision D1). -/
def defaultOpMap : List Opcode :=
  [.load, .add, .sub, .mul, .div, .jump, .jumpF, .jumpB] ++
  [.eq, .notEq, .greater, .less, .greaterEq, .lessEq, .jumpEq, .jumpNeq]

/-- `Decode(b)` (R77): a pure function of the one byte; 254 is `Halt`, a byte of `OPMAP` its opcode, any other `Bad`. -/
def decodeByte (m : List Opcode) (b : Byte) : OpId :=
  if b = haltCode then .assigned .halt
  else match m[b.toNat]? with
    | some op => .assigned op
    | none => .bad

/-- The opcode byte of an opcode (R76): 254 for `Halt`, otherwise its place in `OPMAP`. -/
def opcodeByte (m : List Opcode) (op : Opcode) : Byte :=
  if op = .halt then haltCode else BitVec.ofNat 8 (m.idxOf op)

/-- `arity(op)` (R78): how many operands the assembler writes. -/
def Opcode.arity : Opcode → Nat
  | .load => 2
  | .add => 3
  | .sub => 3
  | .mul => 3
  | .div => 3
  | .jump => 1
  | .jumpF => 1
  | .jumpB => 1
  | .eq => 2
  | .notEq => 2
  | .greater => 2
  | .less => 2
  | .greaterEq => 2
  | .lessEq => 2
  | .jumpEq => 1
  | .jumpNeq => 1
  | .halt => 0

/-- `Length(op)` (R79): the bytes the instruction occupies; `Bad` takes its one byte. For `JumpNeq` these are the two bytes
of its encoding (R72), whatever the policy. -/
def OpId.length : OpId → Nat
  | .assigned .load => 4
  | .assigned .add => 4
  | .assigned .sub => 4
  | .assigned .mul => 4
  | .assigned .div => 4
  | .assigned .jump => 2
  | .assigned .jumpF => 2
  | .assigned .jumpB => 2
  | .assigned .eq => 4
  | .assigned .notEq => 4
  | .assigned .greater => 4
  | .assigned .less => 4
  | .assigned .greaterEq => 4
  | .assigned .lessEq => 4
  | .assigned .jumpEq => 2
  | .assigned .jumpNeq => 2
  | .assigned .halt => 1
  | .bad => 1

/-- The opcode identity an instruction has (R96). -/
def Instr.opId : Instr → OpId
  | .load _ _ => .assigned .load
  | .add _ _ _ => .assigned .add
  | .sub _ _ _ => .assigned .sub
  | .mul _ _ _ => .assigned .mul
  | .div _ _ _ => .assigned .div
  | .jump _ => .assigned .jump
  | .jumpF _ => .assigned .jumpF
  | .jumpB _ => .assigned .jumpB
  | .eq _ _ _ => .assigned .eq
  | .notEq _ _ _ => .assigned .notEq
  | .greater _ _ _ => .assigned .greater
  | .less _ _ _ => .assigned .less
  | .greaterEq _ _ _ => .assigned .greaterEq
  | .lessEq _ _ _ => .assigned .lessEq
  | .jumpEq _ => .assigned .jumpEq
  | .jumpNeq _ => .assigned .jumpNeq
  | .halt => .assigned .halt
  | .bad _ => .bad

/-- The immediate of `Load` (R80): `B2 ‖ B3`, the byte at the lower offset is the high byte (R56). -/
def immOf (hi lo : Byte) : Imm := hi ++ lo

/-- The high byte of an immediate, emitted first (R105). -/
def immHi (imm : Imm) : Byte := imm.extractLsb' 8 8

/-- The low byte of an immediate, emitted second (R105). -/
def immLo (imm : Imm) : Byte := imm.extractLsb' 0 8

/-- The instruction that an identity and the bytes `B0` to `B3` make (R71 to R75): an identity takes the operand bytes its
format has and leaves the others alone. -/
def assemble4 (op : OpId) (b0 b1 b2 b3 : Byte) : Instr :=
  match op with
  | .assigned .load => .load b1 (immOf b2 b3)
  | .assigned .add => .add b1 b2 b3
  | .assigned .sub => .sub b1 b2 b3
  | .assigned .mul => .mul b1 b2 b3
  | .assigned .div => .div b1 b2 b3
  | .assigned .jump => .jump b1
  | .assigned .jumpF => .jumpF b1
  | .assigned .jumpB => .jumpB b1
  | .assigned .eq => .eq b1 b2 b3
  | .assigned .notEq => .notEq b1 b2 b3
  | .assigned .greater => .greater b1 b2 b3
  | .assigned .less => .less b1 b2 b3
  | .assigned .greaterEq => .greaterEq b1 b2 b3
  | .assigned .lessEq => .lessEq b1 b2 b3
  | .assigned .jumpEq => .jumpEq b1
  | .assigned .jumpNeq => .jumpNeq b1
  | .assigned .halt => .halt
  | .bad => .bad b0

/-- The instruction whose bytes start `B0`, `B1`, `B2`, `B3` (R10), of which it takes as many as its length says. -/
def decode4 (m : List Opcode) (b0 b1 b2 b3 : Byte) : Instr := assemble4 (decodeByte m b0) b0 b1 b2 b3

/-- Why a sequence of bytes holds no whole instruction. No byte VALUE is rejected: unassigned opcode bytes are `Bad` (R77)
and operand bytes may hold anything (R85). -/
inductive DecodeError where
  /-- There is no byte at all. -/
  | noBytes
  /-- The bytes end after the opcode byte or part-way through the operands (R58, R204). -/
  | truncated (op : OpId) (present : List Byte)
deriving DecidableEq, Repr

/-- Decode the instruction at the head of a sequence of bytes; the answer holds the bytes after it. -/
def decode (m : List Opcode) : List Byte → Except DecodeError (Instr × List Byte)
  | [] => .error .noBytes
  | b0 :: rest =>
    let n := (decodeByte m b0).length - 1
    if rest.length < n then .error (.truncated (decodeByte m b0) (b0 :: rest))
    else .ok (decode4 m b0 (rest.getD 0 0) (rest.getD 1 0) (rest.getD 2 0), rest.drop n)

/-- The instructions met by a straight-line decode from the first byte (R109); the fuel bounds the number of
instructions, `none` means it ran out or the bytes ended part-way through one. -/
def decodeStream (m : List Opcode) : Nat → List Byte → Option (List Instr)
  | _, [] => some []
  | 0, _ :: _ => none
  | fuel + 1, b :: bs =>
    match decode m (b :: bs) with
    | .error _ => none
    | .ok (i, rest) => (decodeStream m fuel rest).map (i :: ·)

/-! ## The encoder, from the same tables. -/

/-- The bytes of an instruction (R71 to R76, R105): the opcode byte, then the operand bytes in positional order. -/
def encode (m : List Opcode) : Instr → List Byte
  | .load r imm => [opcodeByte m .load, r, immHi imm, immLo imm]
  | .add a b d => [opcodeByte m .add, a, b, d]
  | .sub a b d => [opcodeByte m .sub, a, b, d]
  | .mul a b d => [opcodeByte m .mul, a, b, d]
  | .div a b d => [opcodeByte m .div, a, b, d]
  | .jump r => [opcodeByte m .jump, r]
  | .jumpF r => [opcodeByte m .jumpF, r]
  | .jumpB r => [opcodeByte m .jumpB, r]
  | .eq a b pad => [opcodeByte m .eq, a, b, pad]
  | .notEq a b pad => [opcodeByte m .notEq, a, b, pad]
  | .greater a b pad => [opcodeByte m .greater, a, b, pad]
  | .less a b pad => [opcodeByte m .less, a, b, pad]
  | .greaterEq a b pad => [opcodeByte m .greaterEq, a, b, pad]
  | .lessEq a b pad => [opcodeByte m .lessEq, a, b, pad]
  | .jumpEq r => [opcodeByte m .jumpEq, r]
  | .jumpNeq r => [opcodeByte m .jumpNeq, r]
  | .halt => [opcodeByte m .halt]
  | .bad o => [o]

/-- The opcode byte `B0` of an instruction (R10): the first byte of its encoding. -/
def Instr.b0 (m : List Opcode) (i : Instr) : Byte := (encode m i).headD 0

/-! ## The opcode table's words. -/

/-- The low `n` bytes of a number, most significant byte first. -/
def bigEndianBytes (w : Nat) : Nat → List Byte
  | 0 => []
  | n + 1 => BitVec.ofNat 8 (w >>> (8 * n)) :: bigEndianBytes w n

/-- The bytes of a word of spec/opcode_table.json, padded with zero bytes to the four of the longest instruction. The table
reads an instruction as ONE number with `B0` as its most significant byte (spec/INDEX.md, "Reading opcode_table.json"), so
the first byte is bits `nbits − 1` down to `nbits − 8`. DEDUCED (assumption log 6). -/
def tableBytes (nbits w : Nat) : List Byte :=
  let bs := bigEndianBytes w (nbits / 8)
  bs ++ List.replicate (4 - bs.length) 0

/-- The instruction the decoder reads from a word of the opcode table, under the default `OPMAP`. -/
def decodeTableWord (nbits w : Nat) : Option Instr :=
  match decode defaultOpMap (tableBytes nbits w) with
  | .ok (i, _) => some i
  | .error _ => none

end Sys2Proof
end

