-- ==== Sys2Proof/Machine/Defaults.lean ====
section
/-! DEFINITION. The parameter values the machine of `State.reset` has: the defaults of spec/00_scope.md R8. -/

namespace Sys2Proof.Machine

/-- The defaults of R8: `OPMAP` of R76, overflow `wrap`, `JumpNeq` `bad`, pad byte 0x00. R8 gives `CODE_CAP` no default:
its greatest legal value, 2^32 − 1, is a DESIGN CHOICE (assumption log 2), unsafe. -/
def defaultParams : Params :=
  { codeCap := maxPc, opmap := defaultOpMap, overflow := .wrap, jumpNeq := .bad, padByte := 0 }

end Sys2Proof.Machine
end

