-- ==== Sys2Proof/Machine/State.lean ====
section
/-! DEFINITION. The state of the engine (spec/10_state.md), the state after reset, and the reasons a step can stop. -/

namespace Sys2Proof.Machine

/-- `status` (R30). -/
inductive Status where
  | running
  | halted
  | faulted
deriving DecidableEq, Repr

/-- The six fault causes (R172). -/
inductive Cause where
  | invalidOpcode
  | divideByZero
  | regIndexOutOfRange
  | fetchPastEnd
  | pcOutOfRange
  | arithOverflow
deriving DecidableEq, Repr

/-- The fault record (R31, R173): the cause, the offset of the faulting instruction's opcode byte, that byte, and the
offending operand byte. -/
structure FaultRecord where
  cause  : Cause
  ipc    : Addr
  opbyte : Byte
  info   : Byte
deriving DecidableEq, Repr

/-- The code buffer (R32, R50): its bytes, each with its offset. -/
abbrev Memory := List Host.Cell

/-- The canonical form of the code buffer (R32): the listed offsets are 0, 1, …, LEN − 1 in this order. So they rise
strictly, none is missing below LEN, and offsets from LEN on hold nothing (R52): an unlisted offset reads as no value. -/
abbrev Memory.wf (m : Memory) : Prop := m.map Prod.fst = List.range' 0 m.length

/-- The engine's state (R20 to R33). `LEN` is the number of cells of `code`. `params` holds the parameters of R8, which no
step and no transaction changes; it is the model's own field (assumption log 1). -/
structure State where
  /-- `x[0]` to `x[31]` (R20). -/
  regs   : Vector Word 32
  /-- The program counter (R23). -/
  pc     : Addr
  /-- The compare flag (R27). -/
  cmp    : Bool
  /-- The remainder register (R28). -/
  rem    : Word
  /-- The status latch (R30). -/
  status : Status
  /-- The fault latch (R31). -/
  fault  : Option FaultRecord
  /-- The code buffer (R32). -/
  code   : Memory
  /-- The parameters (R8). -/
  params : Params
deriving DecidableEq, Repr

/-- `LEN` (R12, R32): the number of bytes in the code buffer. -/
def State.len (s : State) : Nat := s.code.length

/-- The state right after reset (R34, R201), with the default parameters of R8. -/
def State.reset : State :=
  { regs := Vector.replicate 32 0, pc := 0, cmp := false, rem := 0
    status := .running, fault := none, code := [], params := defaultParams }

/-- Why the MODEL stops. A fault of the spec (R172) is not one of these: the engine takes it, and the step answers the next
state with the fault latched. Both reasons below occur only in states that the invariants of R35 exclude. -/
inductive Fault where
  /-- Raised by `step` when an offset below LEN is not listed in the code buffer (`Memory.wf` fails). Safe: it stops where
  the spec describes no machine (assumption log 4). -/
  | codeHole
  /-- Raised by `tick` when `status` is Faulted and no fault is recorded, which R31 excludes: there is no record to report.
  Safe (assumption log 10). -/
  | faultRecordMissing
deriving DecidableEq, Repr

/-- Why the model refuses. -/
inductive Refusal where
  /-- Raised by `exec` for an instruction that has no meaning yet. No arm raises it: every instruction has its meaning. Safe. -/
  | notModelled (mnemonic : String)
deriving DecidableEq, Repr

end Sys2Proof.Machine
end

