-- ==== Sys2Proof/Machine/Ops.lean ====
section
/-! DEFINITION. The named operations every meaning is made of: registers, the code buffer, the program counter, and the one
operation that takes a fault (spec/00_scope.md R12 to R16, spec/60_exceptions.md R178, R179). -/

namespace Sys2Proof.Machine

/-- What an operation of one instruction answers. -/
abbrev Answer := Host.Outcome State Fault Refusal

/-! ## General registers (register-file controller). -/

/-- `x[i]` (R12). -/
def State.readReg (s : State) (i : RegIdx) : Word := s.regs[i.val]

/-- `x[i] <- v` (R12); no register is hardwired (R20). -/
def State.setReg (s : State) (i : RegIdx) (v : Word) : State := { s with regs := s.regs.set i.val v i.isLt }

/-- `x[i]` read as a signed number (R11). -/
def State.readInt (s : State) (i : RegIdx) : Int := (s.readReg i).toInt

/-! ## The program counter, the flags and the latches. -/

/-- `pc <- t`, for `t` a live program counter of R15 (assumption log 15: it is below 2^32 wherever R35 holds). -/
def State.setPc (s : State) (t : Nat) : State := { s with pc := BitVec.ofNat 32 t }

/-- `cmp <- b` (R27). -/
def State.setCmp (s : State) (b : Bool) : State := { s with cmp := b }

/-- `rem <- v` (R28). -/
def State.setRem (s : State) (v : Word) : State := { s with rem := v }

/-- `status <- v` (R30). -/
def State.setStatus (s : State) (v : Status) : State := { s with status := v }

/-! ## The code buffer. -/

/-- The byte listed at an offset (R13 `MemRead`); `none` where nothing is listed (R52). -/
def Memory.read : Memory → Nat → Option Byte
  | [], _ => none
  | (k, b) :: m, a => if k = a then some b else Memory.read m a

/-- The bytes of the buffer in order (R41). -/
def Memory.bytes (m : Memory) : List Byte := m.map Prod.snd

/-- The cells of a sequence of bytes placed from an offset on. -/
def Memory.ofBytesFrom (k : Nat) : List Byte → Memory
  | [] => []
  | b :: bs => (k, b) :: Memory.ofBytesFrom (k + 1) bs

/-- The code buffer that holds exactly these bytes, the first at offset 0. -/
def Memory.ofBytes (bs : List Byte) : Memory := Memory.ofBytesFrom 0 bs

/-- `MemWrite(LEN, 1, b)` with `LEN <- LEN + 1` (R13, R38): the only write there is. -/
def Memory.append (m : Memory) (b : Byte) : Memory := m ++ [(m.length, b)]

/-- The opcode byte of an opcode under the machine's `OPMAP` (R76). -/
def State.opbyte (s : State) (op : Opcode) : Byte := opcodeByte s.params.opmap op

/-! ## Taking a fault. -/

/-- The code of a cause (R172, the spec's decision D14). -/
def Cause.code : Cause → Nat
  | .invalidOpcode => 1
  | .divideByZero => 2
  | .regIndexOutOfRange => 3
  | .fetchPastEnd => 4
  | .pcOutOfRange => 5
  | .arithOverflow => 6

/-- What a `raise` reports (R14): the cause, the `info` byte of R173, and the live program counter at that moment, which is
where `pc` is left (R179). -/
structure Raised where
  cause : Cause
  info  : Byte
  pc    : Nat
deriving DecidableEq, Repr

/-- The result of pseudocode that may raise (R14). -/
abbrev Exec (α : Type) := Except Raised α

/-- Fault entry (R178, R179), the ONE operation that takes an exception: the fault latches are written, `pc` stays past the
bytes consumed, nothing else changes. `s` is the state in which the instruction began, so `s.pc` is `ipc`. Every `raise` of
the spec's pseudocode comes before its instruction's first write (R179), so that state is also the state at the raise but
for `pc` (assumption log 8). -/
def takeFault (opbyte : Byte) (e : Raised) (s : State) : State :=
  { s with
    pc := BitVec.ofNat 32 e.pc
    status := .faulted
    fault := some { cause := e.cause, ipc := s.pc, opbyte := opbyte, info := e.info } }

/-- Run the pseudocode of an instruction that began in `s` (R95): its result is the next state, and a `raise` takes the
fault. There is no return from a fault (R182): the only way out is the host's `hostReset`. -/
def perform (opbyte : Byte) (s : State) (body : Exec State) : Answer :=
  match body with
  | .ok t => .next t
  | .error e => .next (takeFault opbyte e s)

/-- The host's `reset` transaction (R37, R200), the only exit from `Faulted` and `Halted` (R182): every piece of state at
its reset value. The parameters are not state and stay. -/
def hostReset (s : State) : State := { State.reset with params := s.params }

end Sys2Proof.Machine
end

