-- ==== Sys2Proof/Machine/Operands.lean ====
section
/-! DEFINITION. The two fetch primitives (spec/20_memory.md R53, R54) and the operand forms of spec/30_encoding.md R71 to
R75. The VALUE of an operand byte is the instruction's own; whether the byte is there is decided here, from `LEN`
(assumption log 5). Each form starts with the opcode byte consumed, so at `ipc + 1`. -/

namespace Sys2Proof.Machine

/-- `Fetch8` (R53) at the live program counter `pc`: answers the program counter after the byte. -/
def fetch8 (s : State) (pc : Nat) : Exec Nat :=
  if s.len ≤ pc then .error { cause := .fetchPastEnd, info := 0, pc := pc }
  else .ok (pc + 1)

/-- A register operand taken, and the live program counter after it. -/
structure OneReg where
  r  : RegIdx
  pc : Nat
deriving DecidableEq, Repr

/-- Two register operands taken, and the live program counter after the instruction. -/
structure TwoRegs where
  a  : RegIdx
  b  : RegIdx
  pc : Nat
deriving DecidableEq, Repr

/-- Three register operands taken, and the live program counter after the instruction. -/
structure ThreeRegs where
  a  : RegIdx
  b  : RegIdx
  d  : RegIdx
  pc : Nat
deriving DecidableEq, Repr

/-- `FetchReg` (R54) of the byte `b`: the byte is consumed, then checked. -/
def fetchReg (b : Byte) (s : State) (pc : Nat) : Exec OneReg :=
  match fetch8 s pc with
  | .error e => .error e
  | .ok pc' =>
    if h : b.toNat < 32 then .ok { r := ⟨b.toNat, h⟩, pc := pc' }
    else .error { cause := .regIndexOutOfRange, info := b, pc := pc' }

/-- The offset after the opcode byte, `ipc + 1` (R95). -/
def State.afterOpcode (s : State) : Nat := s.pc.toNat + 1

/-- Format `R` (R72): one register. -/
def formR (r : Byte) (s : State) : Exec OneReg := fetchReg r s s.afterOpcode

/-- Format `RI` (R73, R110): a register, then the two immediate bytes, which are never checked as indices. -/
def formRI (r : Byte) (s : State) : Exec OneReg := do
  let o ← fetchReg r s s.afterOpcode
  let hi ← fetch8 s o.pc
  let lo ← fetch8 s hi
  pure { r := o.r, pc := lo }

/-- Format `RRR` (R74, R119): three registers, fetched and checked in this order. -/
def formRRR (a b d : Byte) (s : State) : Exec ThreeRegs := do
  let x ← fetchReg a s s.afterOpcode
  let y ← fetchReg b s x.pc
  let z ← fetchReg d s y.pc
  pure { a := x.r, b := y.r, d := z.r, pc := z.pc }

/-- Format `RRP` (R75, R139): two registers, then the pad byte, which must be there and is not checked as an index. -/
def formRRP (a b : Byte) (s : State) : Exec TwoRegs := do
  let x ← fetchReg a s s.afterOpcode
  let y ← fetchReg b s x.pc
  let p ← fetch8 s y.pc
  pure { a := x.r, b := y.r, pc := p }

/-- `SetPc(t, r)` (R133) from the live program counter `pc`: a target below 0 or above 2^PCW − 1 raises `PcOutOfRange` and
`pc` is not written; otherwise the target. -/
def setPcTarget (t : Int) (r : Byte) (pc : Nat) : Exec Nat :=
  if t < 0 ∨ (maxPc : Int) < t then .error { cause := .pcOutOfRange, info := r, pc := pc }
  else .ok t.toNat

end Sys2Proof.Machine
end

