-- ==== Sys2Proof/Machine/Flags.lean ====
section
/-! DEFINITION. What the flag update unit and the arithmetic compute: the overflow law (spec/41_arithmetic.md R123), the
division results (R124) and the six relations (spec/43_compare.md R140 to R146). The engine has no carry, zero, sign or
overflow flag (R27). -/

namespace Sys2Proof.Machine

/-- The exact result is in −2^31 to 2^31 − 1 (R123). -/
def fits32 (n : Int) : Bool := decide (-2147483648 ≤ n) && decide (n ≤ 2147483647)

/-- `Wrap(n, d)` (R123), `pc` the live program counter: an exact result that does not fit keeps its low 32 bits or raises
`ArithOverflow(d)`, as `OVERFLOW_POLICY` says. `BitVec.ofInt 32 n` is `s32(n)` of R11. -/
def wrap (policy : OverflowPolicy) (n : Int) (d : Byte) (pc : Nat) : Exec Word :=
  if fits32 n then .ok (BitVec.ofInt 32 n)
  else match policy with
    | .wrap => .ok (BitVec.ofInt 32 n)
    | .fault => .error { cause := .arithOverflow, info := d, pc := pc }

/-- `trunc_div(a, b)` (R16): the quotient rounded toward zero. -/
def truncDiv (a b : Int) : Int := Int.tdiv a b

/-- `A − B × trunc_div(A, B)` (R16, R124): zero or the sign of `A`. -/
def truncRem (a b : Int) : Int := a - b * truncDiv a b

/-- The relation of `Eq` (R140). -/
def relEq (a b : Int) : Bool := decide (a = b)

/-- The relation of `NotEq` (R141). -/
def relNotEq (a b : Int) : Bool := decide (a ≠ b)

/-- The relation of `Greater` (R142). -/
def relGreater (a b : Int) : Bool := decide (a > b)

/-- The relation of `Less` (R143). -/
def relLess (a b : Int) : Bool := decide (a < b)

/-- The relation of `GreaterEq` (R144). -/
def relGreaterEq (a b : Int) : Bool := decide (a ≥ b)

/-- The relation of `LessEq` (R145). -/
def relLessEq (a b : Int) : Bool := decide (a ≤ b)

end Sys2Proof.Machine
end

