-- ==== Sys2Proof/Machine/Arithmetic.lean ====
section
/-! DEFINITION. `Add`, `Sub`, `Mul`, `Div` (spec/41_arithmetic.md). -/

namespace Sys2Proof.Machine

/-- The shared shape of `Add`, `Sub` and `Mul` (R119, R123): the exact result of the two signed sources, wrapped, to `x[d]`. -/
def arith (f : Int → Int → Int) (a b d : Byte) (s : State) : Exec State := do
  let o ← formRRR a b d s
  let v ← wrap s.params.overflow (f (s.readInt o.a) (s.readInt o.b)) d o.pc
  pure ((s.setReg o.d v).setPc o.pc)

/-- `Add a, b, d` (R120). -/
def execAdd (a b d : Byte) (s : State) : Answer :=
  perform (s.opbyte .add) s (arith (fun x y => x + y) a b d s)

/-- `Sub a, b, d` (R121): first minus second. -/
def execSub (a b d : Byte) (s : State) : Answer :=
  perform (s.opbyte .sub) s (arith (fun x y => x - y) a b d s)

/-- `Mul a, b, d` (R122). -/
def execMul (a b d : Byte) (s : State) : Answer :=
  perform (s.opbyte .mul) s (arith (fun x y => x * y) a b d s)

/-- The pseudocode of `Div` (R124): a zero divisor raises `DivideByZero(b)`; the wrapped quotient goes to `x[d]` and the 32
bits of the remainder to `rem`. -/
def divide (a b d : Byte) (s : State) : Exec State := do
  let o ← formRRR a b d s
  if s.readInt o.b = 0 then .error { cause := .divideByZero, info := b, pc := o.pc }
  else
    let q ← wrap s.params.overflow (truncDiv (s.readInt o.a) (s.readInt o.b)) d o.pc
    let r := BitVec.ofInt 32 (truncRem (s.readInt o.a) (s.readInt o.b))
    pure (((s.setReg o.d q).setRem r).setPc o.pc)

/-- `Div a, b, d` (R124, R125). -/
def execDiv (a b d : Byte) (s : State) : Answer :=
  perform (s.opbyte .div) s (divide a b d s)

end Sys2Proof.Machine
end

