-- ==== Sys2Proof/Machine/Compare.lean ====
section
/-! DEFINITION. The six comparisons (spec/43_compare.md). -/

namespace Sys2Proof.Machine

/-- The shared shape (R139): `cmp` becomes the relation of the two signed values, the first operand on its left. -/
def compareRegs (rel : Int → Int → Bool) (a b : Byte) (s : State) : Exec State := do
  let o ← formRRP a b s
  pure ((s.setCmp (rel (s.readInt o.a) (s.readInt o.b))).setPc o.pc)

/-- `Eq a, b` (R140). The pad byte's value is ignored (R75, R139). -/
def execEq (a b _pad : Byte) (s : State) : Answer :=
  perform (s.opbyte .eq) s (compareRegs relEq a b s)

/-- `NotEq a, b` (R141). -/
def execNotEq (a b _pad : Byte) (s : State) : Answer :=
  perform (s.opbyte .notEq) s (compareRegs relNotEq a b s)

/-- `Greater a, b` (R142). -/
def execGreater (a b _pad : Byte) (s : State) : Answer :=
  perform (s.opbyte .greater) s (compareRegs relGreater a b s)

/-- `Less a, b` (R143). -/
def execLess (a b _pad : Byte) (s : State) : Answer :=
  perform (s.opbyte .less) s (compareRegs relLess a b s)

/-- `GreaterEq a, b` (R144). -/
def execGreaterEq (a b _pad : Byte) (s : State) : Answer :=
  perform (s.opbyte .greaterEq) s (compareRegs relGreaterEq a b s)

/-- `LessEq a, b` (R145). -/
def execLessEq (a b _pad : Byte) (s : State) : Answer :=
  perform (s.opbyte .lessEq) s (compareRegs relLessEq a b s)

end Sys2Proof.Machine
end

