-- ==== Sys2Proof/Machine/CondJumps.lean ====
section
/-! DEFINITION. `JumpEq`, `JumpNeq` (spec/44_conditional_jumps.md). -/

namespace Sys2Proof.Machine

/-- A conditional absolute jump (R150, R151): the index byte is fetched and checked whether or not the jump is taken (R54);
when it is not taken the register is not read. -/
def jumpIf (taken : Bool) (r : Byte) (s : State) : Exec State := do
  let o ← formR r s
  if taken then
    let t ← setPcTarget (s.readInt o.r) r o.pc
    pure (s.setPc t)
  else pure (s.setPc o.pc)

/-- `JumpEq r` (R150): taken when `cmp` is true. -/
def execJumpEq (r : Byte) (s : State) : Answer :=
  perform (s.opbyte .jumpEq) s (jumpIf s.cmp r s)

/-- `JumpNeq r` (R151). Policy `bad`: `InvalidOpcode(B0)`, no operand byte fetched, `pc` stays `ipc + 1`. Policy `mirror`:
taken when `cmp` is false. -/
def execJumpNeq (r : Byte) (s : State) : Answer :=
  perform (s.opbyte .jumpNeq) s
    (match s.params.jumpNeq with
    | .bad => .error { cause := .invalidOpcode, info := s.opbyte .jumpNeq, pc := s.afterOpcode }
    | .mirror => jumpIf (!s.cmp) r s)

end Sys2Proof.Machine
end

