-- ==== Sys2Proof/Machine/Jumps.lean ====
section
/-! DEFINITION. `Jump`, `JumpF`, `JumpB` (spec/42_jumps.md). -/

namespace Sys2Proof.Machine

/-- Jump to a target computed from the live program counter after the instruction and the register's signed value (R133). -/
def jumpTo (target : Nat → Int → Int) (r : Byte) (s : State) : Exec State := do
  let o ← formR r s
  let t ← setPcTarget (target o.pc (s.readInt o.r)) r o.pc
  pure (s.setPc t)

/-- A relative jump (R131, R132): a negative distance raises `PcOutOfRange`; otherwise `SetPc` of the target. -/
def jumpBy (target : Nat → Int → Int) (r : Byte) (s : State) : Exec State := do
  let o ← formR r s
  if s.readInt o.r < 0 then .error { cause := .pcOutOfRange, info := r, pc := o.pc }
  else
    let t ← setPcTarget (target o.pc (s.readInt o.r)) r o.pc
    pure (s.setPc t)

/-- `Jump r` (R130): absolute. -/
def execJump (r : Byte) (s : State) : Answer :=
  perform (s.opbyte .jump) s (jumpTo (fun _ v => v) r s)

/-- `JumpF r` (R131): forward from the byte after the instruction. -/
def execJumpF (r : Byte) (s : State) : Answer :=
  perform (s.opbyte .jumpF) s (jumpBy (fun pc v => (pc : Int) + v) r s)

/-- `JumpB r` (R132): backward from the byte after the instruction. -/
def execJumpB (r : Byte) (s : State) : Answer :=
  perform (s.opbyte .jumpB) s (jumpBy (fun pc v => (pc : Int) - v) r s)

end Sys2Proof.Machine
end

