-- ==== Sys2Proof/Machine/Load.lean ====
section
/-! DEFINITION. `Load` (spec/40_load.md). -/

namespace Sys2Proof.Machine

/-- `Load r, imm` (R110, R80): the immediate zero-extended to 32 bits. -/
def execLoad (r : Byte) (imm : Imm) (s : State) : Answer :=
  perform (s.opbyte .load) s do
    let o ← formRI r s
    pure ((s.setReg o.r (imm.setWidth 32)).setPc o.pc)

end Sys2Proof.Machine
end

