-- ==== Sys2Proof/Machine/System.lean ====
section
/-! DEFINITION. `Halt` and the Bad sentinel (spec/45_halt_bad.md). -/

namespace Sys2Proof.Machine

/-- `Halt` (R160): `status` becomes Halted and `pc` is left one past the `Halt` byte. It cannot fault. -/
def execHalt (s : State) : Answer :=
  perform (s.opbyte .halt) s (.ok ((s.setStatus .halted).setPc s.afterOpcode))

/-- Bad (R161): `InvalidOpcode(B0)`, only `B0` consumed. -/
def execBad (o : Byte) (s : State) : Answer :=
  perform o s (.error { cause := .invalidOpcode, info := o, pc := s.afterOpcode })

end Sys2Proof.Machine
end

