-- ==== Sys2Proof/Machine/Dispatch.lean ====
section
/-! DEFINITION. Dispatch by opcode identity alone, total over the 18 identities (spec/30_encoding.md R96). -/

namespace Sys2Proof.Machine

-- `Exec(op)` of R95: one arm per row of spec/opcode_table.json.
def exec (i : Instr) (s : State) : Host.Outcome State Fault Refusal :=
  match i with
  | .load r imm => Sys2Proof.Machine.execLoad r imm s
  | .add a b d => Sys2Proof.Machine.execAdd a b d s
  | .sub a b d => Sys2Proof.Machine.execSub a b d s
  | .mul a b d => Sys2Proof.Machine.execMul a b d s
  | .div a b d => Sys2Proof.Machine.execDiv a b d s
  | .jump r => Sys2Proof.Machine.execJump r s
  | .jumpF r => Sys2Proof.Machine.execJumpF r s
  | .jumpB r => Sys2Proof.Machine.execJumpB r s
  | .eq a b pad => Sys2Proof.Machine.execEq a b pad s
  | .notEq a b pad => Sys2Proof.Machine.execNotEq a b pad s
  | .greater a b pad => Sys2Proof.Machine.execGreater a b pad s
  | .less a b pad => Sys2Proof.Machine.execLess a b pad s
  | .greaterEq a b pad => Sys2Proof.Machine.execGreaterEq a b pad s
  | .lessEq a b pad => Sys2Proof.Machine.execLessEq a b pad s
  | .jumpEq r => Sys2Proof.Machine.execJumpEq r s
  | .jumpNeq r => Sys2Proof.Machine.execJumpNeq r s
  | .halt => Sys2Proof.Machine.execHalt s
  | .bad o => Sys2Proof.Machine.execBad o s

end Sys2Proof.Machine
end

