-- ==== Sys2Proof/Machine/Fetch.lean ====
section
/-! DEFINITION. What a tick finds at the program counter (spec/30_encoding.md R95), and how an instruction is placed there. -/

namespace Sys2Proof.Machine

/-- What stands at the program counter when a tick begins (R95). -/
inductive Fetched where
  /-- The tick executes nothing and changes nothing: `status` is Faulted or Halted, or `pc ≥ LEN`. -/
  | idle
  /-- A byte below LEN is not listed, which `Memory.wf` excludes. -/
  | hole
  /-- The instruction at `pc`. -/
  | instr (i : Instr)
deriving DecidableEq, Repr

/-- The byte at `pc + k`, or `fill` where the buffer has ended; `none` only for a hole below LEN. The fill stands for an
operand byte that does not exist: the instruction raises `FetchPastEnd` at it and no result depends on it (log 5). -/
def State.operandByte (fill : Byte) (s : State) (k : Nat) : Option Byte :=
  if s.len ≤ s.pc.toNat + k then some fill else s.code.read (s.pc.toNat + k)

/-- The instruction at `pc`, with `fill` for bytes past the end of the buffer. -/
def State.instrAt (fill : Byte) (s : State) : Option Instr :=
  match s.code.read s.pc.toNat, s.operandByte fill 1, s.operandByte fill 2, s.operandByte fill 3 with
  | some b0, some b1, some b2, some b3 => some (decode4 s.params.opmap b0 b1 b2 b3)
  | _, _, _, _ => none

/-- Whether a tick executes an instruction (R95): `status` is Running and `pc < LEN`. -/
def State.active (s : State) : Bool := decide (s.status = .running) && decide (s.pc.toNat < s.len)

/-- The fetch and decode of a tick (R95), with `fill` for bytes past the end of the buffer. -/
def State.fetchWith (fill : Byte) (s : State) : Fetched :=
  if s.active then
    match s.instrAt fill with
    | some i => .instr i
    | none => .hole
  else .idle

/-- The fetch and decode of a tick (R95). -/
def State.fetch (s : State) : Fetched := s.fetchWith 0

/-- The code buffer with these bytes written from offset `a` on; a gap between LEN and `a` is filled with zero bytes. No
instruction and no transaction does this: it places an instruction for a check (assumption log 7). -/
def Memory.place (m : Memory) (a : Nat) (bs : List Byte) : Memory :=
  let old := m.bytes
  Memory.ofBytes (old.take a ++ List.replicate (a - old.length) 0 ++ bs ++ old.drop (a + bs.length))

/-- The state with these bytes at the program counter and the latches as a tick that executes needs them. -/
def State.placeAtPc (s : State) (bs : List Byte) : State :=
  { s with code := s.code.place s.pc.toNat bs, status := .running, fault := none }

end Sys2Proof.Machine
end

