-- ==== Sys2Proof/Machine/Step.lean ====
section
/-! DEFINITION. One step: the state change of one `tick` (spec/30_encoding.md R95). -/

namespace Sys2Proof.Machine

/-- One tick's state change (R95): a tick that executes nothing leaves the state as it is; otherwise the instruction at
`pc` is executed. The outcome that the tick also returns is `tickOutcome` (Machine/Transactions.lean). -/
def step (s : State) : Host.Outcome State Fault Refusal :=
  match s.fetch with
  | .idle => .next s
  | .hole => .fault .codeHole
  | .instr i => exec i s

/-- The state with the instruction of a word of the opcode table placed where the next tick fetches (assumption log 7). -/
def State.withFetchWord (s : State) (nbits w : Nat) : State := s.placeAtPc (tableBytes nbits w)

end Sys2Proof.Machine
end

