-- ==== Sys2Proof/Machine/Lexer.lean ====
section
/-! DEFINITION. The assembler's lexer (spec/30_encoding.md R97 to R101). The assembler is the toolchain that must agree with
the decoder (spec/00_scope.md R5); no meaning of the engine depends on it. Source text is a list of bytes (assumption log 13). -/

namespace Sys2Proof.Asm

/-- The bytes of an ASCII text. -/
def ascii (text : String) : List Byte := text.toList.map fun c => BitVec.ofNat 8 c.toNat

/-- The token kinds (R101). No lexer rule produces `label` (R108). -/
inductive Token where
  | newline
  | op (o : Opcode)
  | reg (r : Byte)
  | int (v : Word)
  | label (name : List Byte)
  | invalidInt
  | invalidReg
  | unknown
  | eof
deriving DecidableEq, Repr

/-- A token with its byte span, from `start` up to but without `stop`, and its source line, counted from 1. -/
structure Lexeme where
  token : Token
  start : Nat
  stop  : Nat
  line  : Nat
deriving DecidableEq, Repr

/-- The bytes not yet read, the offset of the first of them, and its line. -/
structure Lexer where
  rest : List Byte
  pos  : Nat
  line : Nat
deriving DecidableEq, Repr

/-- The line-feed character, the only line boundary (R101, decision D23). -/
def lineFeed : Byte := 0x0A

/-- Plain whitespace (R101): space, tab, carriage return. -/
def isBlank (b : Byte) : Bool := b = 0x20 || b = 0x09 || b = 0x0D

/-- A decimal digit. -/
def isDecDigit (b : Byte) : Bool := decide (0x30 ≤ b.toNat) && decide (b.toNat ≤ 0x39)

/-- `A` to `Z`. -/
def isUpper (b : Byte) : Bool := decide (0x41 ≤ b.toNat) && decide (b.toNat ≤ 0x5A)

/-- `a` to `z`. -/
def isLower (b : Byte) : Bool := decide (0x61 ≤ b.toNat) && decide (b.toNat ≤ 0x7A)

/-- An ASCII letter (R101). -/
def isLetter (b : Byte) : Bool := isUpper b || isLower b

/-- A hexadecimal digit (R99): 0-9, a-f, A-F. -/
def isHexDigit (b : Byte) : Bool :=
  isDecDigit b || (isUpper b && decide (b.toNat ≤ 0x46)) || (isLower b && decide (b.toNat ≤ 0x66))

/-- The value of a hexadecimal digit. -/
def digitValue (b : Byte) : Nat :=
  if isDecDigit b then b.toNat - 0x30 else if isUpper b then b.toNat - 0x37 else b.toNat - 0x57

/-- A digit run read as an unsigned number in a base (R99, R100). -/
def runValue (base : Nat) (run : List Byte) : Nat := run.foldl (fun n b => n * base + digitValue b) 0

/-- A letter in upper case. -/
def toUpper (b : Byte) : Byte := if isLower b then b - 0x20 else b

/-- A letter in lower case. -/
def toLower (b : Byte) : Byte := if isUpper b then b + 0x20 else b

/-- The opcode's name as the source's table writes it (R98). -/
def name : Opcode → List Byte
  | .load => ascii "Load"
  | .add => ascii "Add"
  | .sub => ascii "Sub"
  | .mul => ascii "Mul"
  | .div => ascii "Div"
  | .jump => ascii "Jump"
  | .jumpF => ascii "JumpF"
  | .jumpB => ascii "JumpB"
  | .eq => ascii "Eq"
  | .notEq => ascii "NotEq"
  | .greater => ascii "Greater"
  | .less => ascii "Less"
  | .greaterEq => ascii "GreaterEq"
  | .lessEq => ascii "LessEq"
  | .jumpEq => ascii "JumpEq"
  | .jumpNeq => ascii "JumpNeq"
  | .halt => ascii "Halt"

/-- The accepted spellings (R98, decision D18): the name, the same in upper case, the same in lower case. -/
def spellings (o : Opcode) : List (List Byte) := [name o, (name o).map toUpper, (name o).map toLower]

/-- `resolve(mnemonic)` (R98): an exact match against the spellings. -/
def resolve (run : List Byte) : Option Opcode := Opcode.all.find? fun o => (spellings o).contains run

/-- What is left after skipping whitespace and comments: whether a line boundary was crossed, and the lexer. -/
structure Skipped where
  crossed : Bool
  lexer   : Lexer
deriving DecidableEq, Repr

/-- Skip whitespace, line boundaries and comments (R101). A comment runs from `;` up to the line feed, which is then
crossed as a line boundary. DEDUCED (assumption log 11): a run of blank lines and comments is one crossing. -/
def skip (inComment crossed : Bool) (pos line : Nat) : List Byte → Skipped
  | [] => { crossed := crossed, lexer := { rest := [], pos := pos, line := line } }
  | b :: bs =>
    if b = lineFeed then skip false true (pos + 1) (line + 1) bs
    else if inComment || isBlank b then skip inComment crossed (pos + 1) line bs
    else if b = 0x3B then skip true crossed (pos + 1) line bs
    else { crossed := crossed, lexer := { rest := b :: bs, pos := pos, line := line } }

/-- The lexer after the first `n` bytes, none of which is a line feed. -/
def Lexer.advance (l : Lexer) (n : Nat) : Lexer := { l with rest := l.rest.drop n, pos := l.pos + n }

/-- A token made of the first `n` bytes, and the lexer after it. -/
def Lexer.take (l : Lexer) (t : Token) (n : Nat) : Lexeme × Lexer :=
  ({ token := t, start := l.pos, stop := l.pos + n, line := l.line }, l.advance n)

/-- The register token of a digit run (R99): the low 8 bits; no digit, or a value above 2^32 − 1, is `InvalidReg`. -/
def regToken (run : List Byte) : Token :=
  if run = [] ∨ 4294967295 < runValue 16 run then .invalidReg else .reg (BitVec.ofNat 8 (runValue 16 run))

/-- The integer token of a digit run (R100): 0 to 2147483647; no digit, or more, is `InvalidInt`. -/
def intToken (run : List Byte) : Token :=
  if run = [] ∨ 2147483647 < runValue 10 run then .invalidInt else .int (BitVec.ofNat 32 (runValue 10 run))

/-- The token of a letter run (R101): the opcode it spells, or `Unknown`. -/
def wordToken (run : List Byte) : Token :=
  match resolve run with
  | some o => .op o
  | none => .unknown

/-- The token that starts at the first byte, which is no whitespace and starts no comment (R99 to R101). -/
def realToken (l : Lexer) : Lexeme × Lexer :=
  match l.rest with
  | [] => l.take .eof 0
  | b :: bs =>
    if b = 0x24 then
      let run := bs.takeWhile isHexDigit
      l.take (regToken run) (run.length + 1)
    else if b = 0x23 then
      let run := bs.takeWhile isDecDigit
      l.take (intToken run) (run.length + 1)
    else if isLetter b then
      let run := (b :: bs).takeWhile isLetter
      l.take (wordToken run) run.length
    else l.take .unknown 1

/-- `token()` (R101): skip whitespace and comments; if a line boundary was crossed the answer is one `Newline`, otherwise
the token that starts there, at the end of the input `Eof`. -/
def nextToken (l : Lexer) : Lexeme × Lexer :=
  let k := skip false false l.pos l.line l.rest
  if k.crossed then
    ({ token := .newline, start := l.pos, stop := k.lexer.pos, line := l.line }, k.lexer)
  else realToken k.lexer

/-- The tokens up to and with the first `Eof`; every other token takes at least one byte, so as much fuel as there are
bytes, and one, is enough (assumption log 9). -/
def lexAll : Nat → Lexer → List Lexeme
  | 0, _ => []
  | fuel + 1, l =>
    let x := nextToken l
    if x.1.token = .eof then [x.1] else x.1 :: lexAll fuel x.2

/-- The tokens of a source text. -/
def lexSource (src : List Byte) : List Lexeme := lexAll (src.length + 1) { rest := src, pos := 0, line := 1 }

end Sys2Proof.Asm
end

