-- ==== Sys2Proof/Machine/Parser.lean ====
section
/-! DEFINITION. The assembler's grammar, operand kinds and error recovery (spec/30_encoding.md R102 to R104, R108). -/

namespace Sys2Proof.Asm

/-- An operand as written (R102). -/
inductive Operand where
  | reg (r : Byte)
  | int (v : Word)
deriving DecidableEq, Repr

/-- The kind an operand slot takes (R103). -/
inductive OperandKind where
  | reg
  | int
deriving DecidableEq, Repr

/-- A parsed instruction (R102). There is no label syntax, so `label` is always `none` (R108). -/
structure AsmInstr where
  op       : Opcode
  operands : List Operand
  line     : Nat
  label    : Option (List Byte)
deriving DecidableEq, Repr

/-- What was expected where an error was found: the tags of R104. `newline` is its generic "Unexpected token", the
tag of a token that stands where the line should end. No rule raises `label` (R108). -/
inductive Expected where
  | opCode
  | operand
  | register
  | integer
  | label
  | newline
deriving DecidableEq, Repr

/-- A parse error with the offending token; the end of the input is a distinct kind (R104). -/
inductive AsmError where
  | unexpected (expected : Expected) (found : Lexeme)
  | unexpectedEof (expected : Expected) (found : Lexeme)
deriving DecidableEq, Repr

/-- The result of parsing (R104): the instructions and the errors, each in source order. -/
structure Program where
  instrs : List AsmInstr
  errors : List AsmError
deriving DecidableEq, Repr

/-- The operand kinds of an opcode (R103, decision D19). -/
def operandKinds : Opcode → List OperandKind
  | .load => [.reg, .int]
  | .add => [.reg, .reg, .reg]
  | .sub => [.reg, .reg, .reg]
  | .mul => [.reg, .reg, .reg]
  | .div => [.reg, .reg, .reg]
  | .jump => [.reg]
  | .jumpF => [.reg]
  | .jumpB => [.reg]
  | .eq => [.reg, .reg]
  | .notEq => [.reg, .reg]
  | .greater => [.reg, .reg]
  | .less => [.reg, .reg]
  | .greaterEq => [.reg, .reg]
  | .lessEq => [.reg, .reg]
  | .jumpEq => [.reg]
  | .jumpNeq => [.reg]
  | .halt => []

/-- The tokens of one line, and the `Newline` or `Eof` that ends it. -/
structure Line where
  tokens : List Lexeme
  last   : Lexeme
deriving DecidableEq, Repr

/-- Cut a token stream at its `Newline`s, up to `Eof`; `seen` holds the tokens of the line so far, latest first. The
recovery of R104 drops tokens up to and with the next `Newline`, so an error never reaches past its own line. -/
def splitLines (seen : List Lexeme) : List Lexeme → List Line
  | [] => []
  | x :: xs =>
    match x.token with
    | .newline => { tokens := seen.reverse, last := x } :: splitLines [] xs
    | .eof => [{ tokens := seen.reverse, last := x }]
    | _ => splitLines (x :: seen) xs

/-- The error for a line that ends where something was expected (R104). -/
def endError (e : Expected) (last : Lexeme) : AsmError :=
  if last.token = .eof then .unexpectedEof e last else .unexpected e last

/-- One operand of the kind its slot takes (R103); any other token is the error. -/
def parseOperand (k : OperandKind) (x : Lexeme) : Except AsmError Operand :=
  match k, x.token with
  | .reg, .reg r => .ok (.reg r)
  | .int, .int v => .ok (.int v)
  | .reg, .int _ => .error (.unexpected .register x)
  | .int, .reg _ => .error (.unexpected .integer x)
  | _, _ => .error (.unexpected .operand x)

/-- The operands of an instruction, one of each kind in order (R102), then the end of the line (R104). -/
def parseOperands : List OperandKind → List Lexeme → Lexeme → Except AsmError (List Operand)
  | [], [], _ => .ok []
  | [], x :: _, _ => .error (.unexpected .newline x)
  | _ :: _, [], last => .error (endError .operand last)
  | k :: ks, x :: xs, last => do
    let o ← parseOperand k x
    let os ← parseOperands ks xs last
    pure (o :: os)

/-- The instruction of a line that starts with a token (R102). -/
def parseInstr (x : Lexeme) (xs : List Lexeme) (last : Lexeme) : Except AsmError AsmInstr :=
  match x.token with
  | .op o => do
    let os ← parseOperands (operandKinds o) xs last
    pure { op := o, operands := os, line := x.line, label := none }
  | _ => .error (.unexpected .opCode x)

/-- Parse the lines one by one (R104): a line with no token is nothing, a line with an error gives the error and no
instruction. -/
def parseLines : List Line → Program
  | [] => { instrs := [], errors := [] }
  | l :: ls =>
    let p := parseLines ls
    match l.tokens with
    | [] => p
    | x :: xs =>
      match parseInstr x xs l.last with
      | .ok i => { p with instrs := i :: p.instrs }
      | .error e => { p with errors := e :: p.errors }

/-- Parse a source text (R102 to R104). -/
def parseSource (src : List Byte) : Program := parseLines (splitLines [] (lexSource src))

end Sys2Proof.Asm
end

