-- ==== Sys2Proof/Machine/Assembler.lean ====
section
/-! DEFINITION. The assembler's encoder (spec/30_encoding.md R105 to R107), under the parameters of spec/00_scope.md R8. -/

namespace Sys2Proof.Asm

/-- The six comparisons, which the encoder pads (R105). -/
def isComparison : Opcode → Bool
  | .eq => true
  | .notEq => true
  | .greater => true
  | .less => true
  | .greaterEq => true
  | .lessEq => true
  | .load => false
  | .add => false
  | .sub => false
  | .mul => false
  | .div => false
  | .jump => false
  | .jumpF => false
  | .jumpB => false
  | .jumpEq => false
  | .jumpNeq => false
  | .halt => false

/-- The low 16 bits of a literal (R106): what is above them is dropped without a word. -/
def truncate (v : Word) : Imm := v.setWidth 16

/-- The bytes of an operand (R105): a register is its index, an integer the low 16 bits, high byte first. -/
def encodeOperand : Operand → List Byte
  | .reg r => [r]
  | .int v => [immHi (truncate v), immLo (truncate v)]

/-- `Encode(instruction)` (R105). -/
def encodeAsm (p : Params) (i : AsmInstr) : List Byte :=
  opcodeByte p.opmap i.op :: i.operands.flatMap encodeOperand ++ (if isComparison i.op then [p.padByte] else [])

/-- The bytes of a program (R107): those of its instructions in order, with nothing between them. -/
def encodeProgram (p : Params) (is : List AsmInstr) : List Byte := is.flatMap (encodeAsm p)

/-- Assemble a source text: the bytes of the instructions of its lines without errors (R104, R107). -/
def assembleSource (p : Params) (src : List Byte) : List Byte := encodeProgram p (parseSource src).instrs

/-- The instruction of the engine that a parsed instruction stands for; `none` where the operands are not of the kinds of
R103, which no parsed instruction has. -/
def toInstr (p : Params) (i : AsmInstr) : Option Instr :=
  match i.operands with
  | [] =>
    match i.op with
    | .halt => some .halt
    | _ => none
  | [.reg r] =>
    match i.op with
    | .jump => some (.jump r)
    | .jumpF => some (.jumpF r)
    | .jumpB => some (.jumpB r)
    | .jumpEq => some (.jumpEq r)
    | .jumpNeq => some (.jumpNeq r)
    | _ => none
  | [.reg r, .int v] =>
    match i.op with
    | .load => some (.load r (truncate v))
    | _ => none
  | [.reg a, .reg b] =>
    match i.op with
    | .eq => some (.eq a b p.padByte)
    | .notEq => some (.notEq a b p.padByte)
    | .greater => some (.greater a b p.padByte)
    | .less => some (.less a b p.padByte)
    | .greaterEq => some (.greaterEq a b p.padByte)
    | .lessEq => some (.lessEq a b p.padByte)
    | _ => none
  | [.reg a, .reg b, .reg d] =>
    match i.op with
    | .add => some (.add a b d)
    | .sub => some (.sub a b d)
    | .mul => some (.mul a b d)
    | .div => some (.div a b d)
    | _ => none
  | _ => none

end Sys2Proof.Asm
end

