-- ==== Sys2Proof/Machine/Transactions.lean ====
section
/-! DEFINITION. The host's five transactions (spec/10_state.md R36 to R42): `reset`, `add_byte`, `tick`, `run`, `inspect`. -/

namespace Sys2Proof.Machine

/-- The four outcomes of a tick (R39). -/
inductive TickOutcome where
  | continue
  | halted
  | endOfBuffer
  | fault (r : FaultRecord)
deriving DecidableEq, Repr

/-- What a tick that took `s` to `t` returns (R95): in state Running, `EndOfBuffer` if `s` was already there with
`pc ≥ LEN`, else `Continue`; in Halted, `Halted`; in Faulted, the recorded fault. -/
def tickOutcome (s t : State) : Host.Outcome TickOutcome Fault Refusal :=
  match t.status with
  | .running => .next (if s.pc.toNat < s.len then .continue else .endOfBuffer)
  | .halted => .next .halted
  | .faulted =>
    match t.fault with
    | some r => .next (.fault r)
    | none => .fault .faultRecordMissing

/-- `tick()` (R39, R95): the next state and the outcome. -/
def tick (s : State) : Host.Outcome (State × TickOutcome) Fault Refusal :=
  match step s with
  | .fault f => .fault f
  | .refused r => .refused r
  | .next t =>
    match tickOutcome s t with
    | .next o => .next (t, o)
    | .fault f => .fault f
    | .refused r => .refused r

/-- `run()` (R40): tick until the outcome is not `Continue`. The spec gives no bound (R186), so this executor takes fuel:
`none` says that the fuel ended first, which is no outcome of the engine (assumption log 9). -/
def run : Nat → State → Host.Outcome (State × Option TickOutcome) Fault Refusal
  | 0, s => .next (s, none)
  | fuel + 1, s =>
    match tick s with
    | .fault f => .fault f
    | .refused r => .refused r
    | .next (t, .continue) => run fuel t
    | .next (t, o) => .next (t, some o)

/-- What `add_byte` returns (R38). -/
inductive AddResult where
  | ok
  | full
deriving DecidableEq, Repr

/-- `add_byte(b)` (R38): append the byte if there is room, in any status; otherwise change nothing. -/
def addByte (b : Byte) (s : State) : State × AddResult :=
  if s.len < s.params.codeCap then ({ s with code := s.code.append b }, .ok) else (s, .full)

/-- What `inspect()` shows (R41). -/
structure Inspection where
  regs   : Vector Word 32
  pc     : Addr
  cmp    : Bool
  rem    : Word
  status : Status
  fault  : Option FaultRecord
  len    : Nat
  code   : List Byte
deriving DecidableEq, Repr

/-- `inspect()` (R41): a copy of all state; it changes nothing. -/
def inspect (s : State) : Inspection :=
  { regs := s.regs, pc := s.pc, cmp := s.cmp, rem := s.rem
    status := s.status, fault := s.fault, len := s.len, code := s.code.bytes }

/-- A transaction of the host (R36); `run` carries the fuel of the executor. -/
inductive Transaction where
  | reset
  | addByte (b : Byte)
  | tick
  | run (fuel : Nat)
  | inspect
deriving DecidableEq, Repr

/-- What a transaction returns (R37 to R41). -/
inductive Response where
  | done
  | added (r : AddResult)
  | ticked (o : TickOutcome)
  | ran (o : Option TickOutcome)
  | inspected (v : Inspection)
deriving DecidableEq, Repr

/-- One transaction, atomic (R36): the state after it and what it returns. -/
def transact (x : Transaction) (s : State) : Host.Outcome (State × Response) Fault Refusal :=
  match x with
  | .reset => .next (hostReset s, .done)
  | .addByte b => .next ((addByte b s).1, .added (addByte b s).2)
  | .tick =>
    match tick s with
    | .next (t, o) => .next (t, .ticked o)
    | .fault f => .fault f
    | .refused r => .refused r
  | .run fuel =>
    match run fuel s with
    | .next (t, o) => .next (t, .ran o)
    | .fault f => .fault f
    | .refused r => .refused r
  | .inspect => .next (s, .inspected (inspect s))

/-- Append several bytes in order (R202): the boot sequence between `reset` and the first tick. -/
def addBytes : List Byte → State → State
  | [], s => s
  | b :: bs, s => addBytes bs (addByte b s).1

end Sys2Proof.Machine
end

