-- ==== Sys2Proof/Safety.lean ====
section
/-! DEFINITION. The terms the statements use: the invariants of spec/10_state.md R35, a run without a fault
(spec/60_exceptions.md R188), the state a fault leaves (R178, R179), who may raise what (R173, R174), and which piece of
state an instruction writes (spec/10_state.md R21, R27, R28). -/

namespace Sys2Proof.Machine

/-- The invariants of R35 that the types of State do not already give, with the parameters legal (R8): the code buffer is
the bytes 0 to LEN − 1 and fits its capacity, and a fault is recorded exactly when `status` is Faulted. -/
structure State.Inv (s : State) : Prop where
  params : s.params.Legal
  code   : s.code.wf
  cap    : s.len ≤ s.params.codeCap
  latch  : s.status = .faulted ↔ s.fault ≠ none

/-- No fault has been recorded (R188): what every claim about a program takes as part of what it proves. -/
def State.noFault (s : State) : Prop := s.fault = none

/-- The `n` bytes from `pc` on are in the buffer (R204). -/
abbrev State.holds (s : State) (n : Nat) : Prop := s.pc.toNat + n ≤ s.len

/-- The state a fault leaves (R178, R179) when the instruction `i`, begun in `s`, raised it after consuming `n` bytes. -/
def State.afterFault (s : State) (i : Instr) (cause : Cause) (info : Byte) (n : Nat) : State :=
  { s with
    pc := s.pc + BitVec.ofNat 32 n
    status := .faulted
    fault := some { cause := cause, ipc := s.pc, opbyte := i.b0 s.params.opmap, info := info } }

/-- `JumpNeq` where the policy makes it raise `InvalidOpcode` before any operand is fetched (R151). -/
abbrev JumpNeqIsBad (i : Instr) (s : State) : Prop := i.opId = .assigned .jumpNeq ∧ s.params.jumpNeq = .bad

/-- The register an instruction writes, as its index byte (R21). -/
def Instr.dest : Instr → Option Byte
  | .load r _ => some r
  | .add _ _ d => some d
  | .sub _ _ d => some d
  | .mul _ _ d => some d
  | .div _ _ d => some d
  | .jump _ => none
  | .jumpF _ => none
  | .jumpB _ => none
  | .eq _ _ _ => none
  | .notEq _ _ _ => none
  | .greater _ _ _ => none
  | .less _ _ _ => none
  | .greaterEq _ _ _ => none
  | .lessEq _ _ _ => none
  | .jumpEq _ => none
  | .jumpNeq _ => none
  | .halt => none
  | .bad _ => none

/-- The six instructions that write `cmp` (R27). -/
def Instr.isComparison (i : Instr) : Bool :=
  match i.opId with
  | .assigned op => Asm.isComparison op
  | .bad => false

/-- The instruction reads `cmp` (R27): `JumpEq`, and `JumpNeq` under policy `mirror`. -/
abbrev ReadsCmp (i : Instr) (s : State) : Prop :=
  i.opId = .assigned .jumpEq ∨ (i.opId = .assigned .jumpNeq ∧ s.params.jumpNeq = .mirror)

/-- A mathematical integer that no signed 32-bit value is (R123). -/
abbrev OutOfRange (n : Int) : Prop := n < -2147483648 ∨ 2147483647 < n

/-- The signed value of the register an index byte names (R11); 0 for a byte that names none, which every use excludes. -/
def State.operand (s : State) (b : Byte) : Int := if h : b.toNat < 32 then s.readInt ⟨b.toNat, h⟩ else 0

/-- The instruction fetches all its operand bytes without a fault (R176): they are in the buffer, every index names a
register, and it is no `JumpNeq` under policy `bad`. -/
abbrev OperandsTaken (i : Instr) (s : State) : Prop :=
  s.holds i.opId.length ∧ i.regsNamed = true ∧ ¬ JumpNeqIsBad i s

/-- The instruction is a jump by register byte `r`, run in `s` it is taken, and it does not reach a legal `pc` (R130 to R133,
R150, R151). The upper bound of `JumpB` trips only where `pc` + 2 exceeds 2^32 − 1, so never where R35 holds. -/
def JumpLeavesRange (i : Instr) (s : State) (r : Byte) : Prop :=
  let v := s.operand r
  let next : Int := s.pc.toNat + 2
  (i = .jump r ∧ v < 0) ∨
  (i = .jumpF r ∧ (v < 0 ∨ (maxPc : Int) < next + v)) ∨
  (i = .jumpB r ∧ (v < 0 ∨ next < v ∨ (maxPc : Int) < next - v)) ∨
  (i = .jumpEq r ∧ s.cmp = true ∧ v < 0) ∨
  (i = .jumpNeq r ∧ s.params.jumpNeq = .mirror ∧ s.cmp = false ∧ v < 0)

/-- The exact result of the instruction, which writes register byte `d`, does not fit (R120 to R125). -/
def ResultLeavesRange (i : Instr) (s : State) (d : Byte) : Prop :=
  ∃ a b, (i = .add a b d ∧ OutOfRange (s.operand a + s.operand b)) ∨
    (i = .sub a b d ∧ OutOfRange (s.operand a - s.operand b)) ∨
    (i = .mul a b d ∧ OutOfRange (s.operand a * s.operand b)) ∨
    (i = .div a b d ∧ s.operand a = -2147483648 ∧ s.operand b = -1)

/-- Who raises the cause and in which states, with which `info`, and where `pc` is left (R172, R173, R174, R176, R179), for an
instruction `i` that took `s` to `t` and recorded `r`. -/
def CauseFits (i : Instr) (s t : State) (r : FaultRecord) : Prop :=
  match r.cause with
  | .invalidOpcode => (i.opId = .bad ∨ JumpNeqIsBad i s) ∧ r.info = r.opbyte ∧ t.pc = s.pc + 1
  | .divideByZero => OperandsTaken i s ∧ (∃ a d, i = .div a r.info d) ∧ s.operand r.info = 0 ∧ t.pc = s.pc + 4
  | .regIndexOutOfRange => ¬ JumpNeqIsBad i s ∧ 32 ≤ r.info.toNat ∧
      ∃ j, i.regBytes[j]? = some r.info ∧ s.holds (j + 2) ∧
        (∀ k c, k < j → i.regBytes[k]? = some c → c.toNat < 32) ∧ t.pc = s.pc + BitVec.ofNat 32 (j + 2)
  | .fetchPastEnd => ¬ JumpNeqIsBad i s ∧ r.info = 0 ∧
      ∃ k, 1 ≤ k ∧ k < i.opId.length ∧ s.len ≤ s.pc.toNat + k ∧ (1 < k → s.pc.toNat + k = s.len) ∧
        (∀ j c, j + 1 < k → i.regBytes[j]? = some c → c.toNat < 32) ∧ t.pc = s.pc + BitVec.ofNat 32 k
  | .pcOutOfRange => OperandsTaken i s ∧ JumpLeavesRange i s r.info ∧ t.pc = s.pc + 2
  | .arithOverflow => OperandsTaken i s ∧ s.params.overflow = .fault ∧ ResultLeavesRange i s r.info ∧ t.pc = s.pc + 4

end Sys2Proof.Machine

namespace Sys2Proof.Asm

/-- The kind of an operand (R103). -/
def Operand.kind : Operand → OperandKind
  | .reg _ => .reg
  | .int _ => .int

/-- The token that an operand is written as (R99, R100). -/
def Operand.token : Operand → Token
  | .reg r => .reg r
  | .int v => .int v

/-- The token an error carries (R104). -/
def AsmError.found : AsmError → Lexeme
  | .unexpected _ x => x
  | .unexpectedEof _ x => x

/-- The line is one opcode and then exactly its operands, each of its kind and in order, and `i` is the instruction so
written, with the line of its opcode and no label (R102, R103, R108). -/
structure LineWrites (l : Line) (i : AsmInstr) : Prop where
  tokens : l.tokens.map Lexeme.token = .op i.op :: i.operands.map Operand.token
  kinds  : i.operands.map Operand.kind = operandKinds i.op
  line   : l.tokens.head?.map Lexeme.line = some i.line
  label  : i.label = none

/-- The token ends a line: it is `Newline` or `Eof` (R102). -/
def EndsLine (t : Token) : Prop := t = .newline ∨ t = .eof

end Sys2Proof.Asm
end

