-- ==== Sys2Proof/Certificates/Slice0/Obligations.lean ====
section
/-! DEFINITION. The statements for the provers. Each docstring names the rules of spec/ it states, or, where it rests on a
decision of the spec (92_eei_decisions.md) or on a choice of the model (assumption log), says so. -/

open Sys2Proof Sys2Proof.Machine

/-! ## Encoding and decoding. -/

/-- Decoding the bytes of a well-formed instruction gives it back with the bytes after it, for every operand and every legal
`OPMAP` (R70 to R77, R105). Derived: `OPMAP` is decision D1, the pad byte decision D2. -/
def Obligations.DecodeOfEncode : Prop :=
  ∀ (m : List Opcode) (i : Instr) (rest : List Byte), OpMapLegal m → i.wellFormed = true →
    decode m (encode m i ++ rest) = .ok (i, rest)

/-- What decodes is the encoding of what it decodes to: no bit of an encoding is dropped and nothing ill-formed comes out
(R70 to R77). Derived, as `DecodeOfEncode`. -/
def Obligations.EncodeOfDecode : Prop :=
  ∀ (m : List Opcode) (bs rest : List Byte) (i : Instr), OpMapLegal m → decode m bs = .ok (i, rest) →
    encode m i ++ rest = bs ∧ i.wellFormed = true

/-- R77: decoding a byte is total over the 256 values, for every legal `OPMAP`: 254 is `Halt`, a byte below 16 the opcode
that `OPMAP` puts there, every other byte `Bad`, which are 239 values; and the default map gives the rows of R76. -/
def Obligations.DecodeByteIsTotal : Prop :=
  (∀ (m : List Opcode) (b : Byte), OpMapLegal m →
    (b = 254 → decodeByte m b = .assigned .halt) ∧
    (b.toNat < 16 → ∃ op, m[b.toNat]? = some op ∧ op ≠ .halt ∧ decodeByte m b = .assigned op) ∧
    (16 ≤ b.toNat → b ≠ 254 → decodeByte m b = .bad)) ∧
  (∀ m : List Opcode, OpMapLegal m →
    ((List.range 256).filter fun n => decodeByte m (BitVec.ofNat 8 n) = .bad).length = 239) ∧
  (List.range 16).map (fun n => decodeByte defaultOpMap (BitVec.ofNat 8 n)) = Opcode.mapped.map .assigned

/-- The only bytes that hold no whole instruction are none at all, and fewer than the opcode byte's length says (R58, R79,
R204); they are rejected by name with what is there. Derived: rejecting by name is the model's. -/
def Obligations.DecodeRejectsOnlyTruncated : Prop :=
  ∀ (m : List Opcode) (bs : List Byte) (e : DecodeError), decode m bs = .error e ↔
    (bs = [] ∧ e = .noBytes) ∨
    (∃ b rest, bs = b :: rest ∧ bs.length < (decodeByte m b).length ∧ e = .truncated (decodeByte m b) bs)

/-- Words written out from the encodings of R71 to R76 decode to the instructions they stand for (R80, R105, R161). Derived:
the bytes 1 to 15 are decision D1. -/
def Obligations.SpecWordsDecode : Prop :=
  decode defaultOpMap [0x00, 0x00, 0x01, 0xF4] = .ok (.load 0 500, []) ∧
  decode defaultOpMap [0x04, 0x02, 0x03, 0x04] = .ok (.div 2 3 4, []) ∧
  decode defaultOpMap [0x07, 0x05] = .ok (.jumpB 5, []) ∧
  decode defaultOpMap [0x0D, 0x00, 0x01, 0xAB] = .ok (.lessEq 0 1 0xAB, []) ∧
  decode defaultOpMap [0x0E, 0x04, 0xFE] = .ok (.jumpEq 4, [0xFE]) ∧
  decode defaultOpMap [0xFE] = .ok (.halt, []) ∧
  decode defaultOpMap [0xC8, 0x01] = .ok (.bad 0xC8, [0x01])

/-! ## The step. -/

/-- A step runs the decoded instruction: with `status` Running and the bytes at `pc` those of a well-formed instruction, the
step is `exec` of it at that state, with nothing added around it (R95). Derived: the order of the tests is D10 and D11. -/
def Obligations.StepRunsDecodedInstr : Prop :=
  ∀ (s : State) (i : Instr) (rest : List Byte), s.Inv → s.status = .running → i.wellFormed = true →
    s.code.bytes.drop s.pc.toNat = encode s.params.opmap i ++ rest → step s = exec i s

/-- The step on an instruction that is not all there (R58, R204, R151): with `status` Running and the buffer ending after the
first byte, or a later but not the last byte, of a well-formed instruction at `pc`, the step is `exec` of that instruction at
that state, whatever the missing bytes would have been. What `exec` then does FetchPastEndRaises, RegIndexOutOfRangeRaises and
JumpNeqBadRaises say. Derived: the order of the tests is D10, D11 and D12, `JumpNeq` is D3. -/
def Obligations.StepRunsTruncatedInstr : Prop :=
  ∀ (s : State) (i : Instr) (missing : List Byte), s.Inv → s.status = .running → i.wellFormed = true →
    s.pc.toNat < s.len → missing ≠ [] → s.code.bytes.drop s.pc.toNat ++ missing = encode s.params.opmap i →
    step s = exec i s

/-- What stands for the operand bytes past the end of the buffer never matters: the instruction raises at the first byte
that is missing (R53, R58). Derived: the fill is the model's (assumption log 5). -/
def Obligations.MissingBytesNeverMatter : Prop :=
  ∀ (s : State) (f g : Byte) (i j : Instr), s.fetchWith f = .instr i → s.fetchWith g = .instr j → exec i s = exec j s

/-- A tick that finds Halted, Faulted or `pc ≥ LEN` changes nothing (R95, R171, R181). Derived: decisions D10, D11. -/
def Obligations.IdleTickChangesNothing : Prop :=
  ∀ s : State, s.status ≠ .running ∨ s.len ≤ s.pc.toNat → step s = .next s

/-- R59: every offset below LEN is fetchable by a tick, and no step writes the buffer. -/
def Obligations.EveryOffsetFetchableNoneWritable : Prop :=
  (∀ s : State, s.code.wf → s.status = .running → s.pc.toNat < s.len → ∃ i, s.fetch = .instr i) ∧
  (∀ s t : State, step s = .next t → t.code = s.code)

/-- The engine always answers a next state: neither `exec` on any instruction nor a step on a buffer in canonical form ends
in a model fault or a refusal (R96: dispatch is total). Derived: which states the model stops in is assumption log 4. -/
def Obligations.EngineAlwaysAnswers : Prop :=
  (∀ (i : Instr) (s : State), ∃ t, exec i s = .next t) ∧
  (∀ s : State, s.code.wf → ∃ t, step s = .next t)

/-- Every step keeps the invariants of R35. Derived: R35 is the spec's own consequence. -/
def Obligations.StepKeepsInvariants : Prop :=
  ∀ s t : State, s.Inv → step s = .next t → t.Inv

/-- The state after reset meets the invariants of R35, and so does the host's reset of any state with legal parameters
(R34, R37). Derived: decision D15, and assumption log 2 for `CODE_CAP`. -/
def Obligations.ResetMeetsInvariants : Prop :=
  State.reset.Inv ∧ ∀ s : State, s.params.Legal → (hostReset s).Inv

/-- Every transaction of the host answers, and keeps the invariants of R35 (R36). Derived: R35 is the spec's own
consequence; the fuel of `run` is assumption log 9. -/
def Obligations.TransactionsKeepInvariants : Prop :=
  ∀ (x : Transaction) (s : State), s.Inv → ∃ t r, transact x s = .next (t, r) ∧ t.Inv

/-- A tick never changes the code buffer or the parameters, and leaves Halted and Faulted as they are (R39, R181); seen from
`step`. Derived: the parameters in State are assumption log 1. -/
def Obligations.StepKeepsParametersAndLatches : Prop :=
  ∀ s t : State, step s = .next t →
    t.params = s.params ∧ t.len = s.len ∧ (s.status ≠ .running → t = s)

/-! ## Instruction results: each concludes that `exec` answers the next state of the instruction's own effect. -/

/-- R80, the immediate of `Load`: `B2` and `B3` are its bytes, and the register receives `256 × B2 + B3`, zero-extended, never
sign-extended, scaled or shifted; nothing else changes but `pc`. -/
def Obligations.LoadZeroExtendsImmediate : Prop :=
  (∀ (m : List Opcode) (r b2 b3 : Byte) (rest : List Byte), OpMapLegal m →
    decode m (opcodeByte m .load :: r :: b2 :: b3 :: rest) = .ok (.load r (immOf b2 b3), rest)) ∧
  (∀ (s : State) (r b2 b3 : Byte) (hr : r.toNat < 32), s.holds 4 →
    exec (.load r (immOf b2 b3)) s = .next { s with
      regs := s.regs.set r.toNat (BitVec.ofNat 32 (256 * b2.toNat + b3.toNat)) hr
      pc := s.pc + 4 })

/-- `Add` (R119, R120, R123): the low 32 bits of the sum, and the exact sum where it fits. Derived: the result that does not
fit is decision D4. -/
def Obligations.AddResult : Prop :=
  ∀ (s : State) (a b d : Byte) (ha : a.toNat < 32) (hb : b.toNat < 32) (hd : d.toNat < 32), s.holds 4 →
    let A := s.readReg ⟨a.toNat, ha⟩
    let B := s.readReg ⟨b.toNat, hb⟩
    let fits := -2147483648 ≤ A.toInt + B.toInt ∧ A.toInt + B.toInt ≤ 2147483647
    (s.params.overflow = .wrap ∨ fits →
      exec (.add a b d) s = .next { s with regs := s.regs.set d.toNat (A + B) hd, pc := s.pc + 4 }) ∧
    (fits → (A + B).toInt = A.toInt + B.toInt)

/-- `Sub` (R119, R121, R123): first minus second. Derived: the result that does not fit is decision D4. -/
def Obligations.SubResult : Prop :=
  ∀ (s : State) (a b d : Byte) (ha : a.toNat < 32) (hb : b.toNat < 32) (hd : d.toNat < 32), s.holds 4 →
    let A := s.readReg ⟨a.toNat, ha⟩
    let B := s.readReg ⟨b.toNat, hb⟩
    let fits := -2147483648 ≤ A.toInt - B.toInt ∧ A.toInt - B.toInt ≤ 2147483647
    (s.params.overflow = .wrap ∨ fits →
      exec (.sub a b d) s = .next { s with regs := s.regs.set d.toNat (A - B) hd, pc := s.pc + 4 }) ∧
    (fits → (A - B).toInt = A.toInt - B.toInt)

/-- `Mul` (R119, R122, R123): the low 32 bits of the signed product. Derived: the result that does not fit is decision D4. -/
def Obligations.MulResult : Prop :=
  ∀ (s : State) (a b d : Byte) (ha : a.toNat < 32) (hb : b.toNat < 32) (hd : d.toNat < 32), s.holds 4 →
    let A := s.readReg ⟨a.toNat, ha⟩
    let B := s.readReg ⟨b.toNat, hb⟩
    let fits := -2147483648 ≤ A.toInt * B.toInt ∧ A.toInt * B.toInt ≤ 2147483647
    (s.params.overflow = .wrap ∨ fits →
      exec (.mul a b d) s = .next { s with regs := s.regs.set d.toNat (A * B) hd, pc := s.pc + 4 }) ∧
    (fits → (A * B).toInt = A.toInt * B.toInt)

/-- `Div` (R124, R125): the two's-complement truncating quotient to `x[d]` and the remainder of that division, as its 32
bits, to `rem`, together. Derived: decisions D5 and D6, and general knowledge K1 for the sign of the remainder. -/
def Obligations.DivResult : Prop :=
  ∀ (s : State) (a b d : Byte) (ha : a.toNat < 32) (hb : b.toNat < 32) (hd : d.toNat < 32), s.holds 4 →
    let A := s.readReg ⟨a.toNat, ha⟩
    let B := s.readReg ⟨b.toNat, hb⟩
    B ≠ 0 → (s.params.overflow = .wrap ∨ ¬ (A.toInt = -2147483648 ∧ B.toInt = -1)) →
      exec (.div a b d) s = .next { s with
        regs := s.regs.set d.toNat (A.sdiv B) hd
        rem := A.srem B
        pc := s.pc + 4 }

/-- The division law (R16, R125): dividend = divisor × quotient + remainder, the quotient's size is the sizes' floor
quotient, the remainder is smaller than the divisor and zero or of the dividend's sign; also where `d` is a source. Derived:
decision D6 and general knowledge K1. -/
def Obligations.DivisionLaw : Prop :=
  ∀ (s : State) (a b d : Byte) (ha : a.toNat < 32) (hb : b.toNat < 32) (hd : d.toNat < 32), s.holds 4 →
    let A := s.readInt ⟨a.toNat, ha⟩
    let B := s.readInt ⟨b.toNat, hb⟩
    B ≠ 0 → ¬ (A = -2147483648 ∧ B = -1) →
      ∃ t, exec (.div a b d) s = .next t ∧
        A = B * t.readInt ⟨d.toNat, hd⟩ + t.rem.toInt ∧
        (t.readInt ⟨d.toNat, hd⟩).natAbs = A.natAbs / B.natAbs ∧
        t.rem.toInt.natAbs < B.natAbs ∧
        (t.rem.toInt = 0 ∨ (0 < t.rem.toInt ↔ 0 < A))

/-- `Jump` (R130): `pc` becomes the register's value; nothing else changes. Derived with R133's bounds (D8). -/
def Obligations.JumpResult : Prop :=
  ∀ (s : State) (r : Byte) (hr : r.toNat < 32), s.holds 2 → 0 ≤ s.readInt ⟨r.toNat, hr⟩ →
    exec (.jump r) s = .next { s with pc := s.readReg ⟨r.toNat, hr⟩ }

/-- `JumpF` (R131): forward from the byte after the instruction, without wrap; nothing else changes. Derived: the base is
the spec's own derivation, the bounds decision D8. -/
def Obligations.JumpFResult : Prop :=
  ∀ (s : State) (r : Byte) (hr : r.toNat < 32), s.holds 2 → 0 ≤ s.readInt ⟨r.toNat, hr⟩ →
    (s.pc.toNat : Int) + 2 + s.readInt ⟨r.toNat, hr⟩ ≤ maxPc →
    ∃ p : Addr, (p.toNat : Int) = s.pc.toNat + 2 + s.readInt ⟨r.toNat, hr⟩ ∧
      exec (.jumpF r) s = .next { s with pc := p }

/-- `JumpB` (R132): backward from the byte after the instruction, without wrap; nothing else changes. Derived: the base is
the spec's own derivation, the bounds decision D8. -/
def Obligations.JumpBResult : Prop :=
  ∀ (s : State) (r : Byte) (hr : r.toNat < 32), s.holds 2 → 0 ≤ s.readInt ⟨r.toNat, hr⟩ →
    s.readInt ⟨r.toNat, hr⟩ ≤ s.pc.toNat + 2 → (s.pc.toNat : Int) + 2 - s.readInt ⟨r.toNat, hr⟩ ≤ maxPc →
    ∃ p : Addr, (p.toNat : Int) = s.pc.toNat + 2 - s.readInt ⟨r.toNat, hr⟩ ∧
      exec (.jumpB r) s = .next { s with pc := p }

/-- `Eq` and `NotEq` (R139 to R141): `cmp` says whether the 32-bit patterns are the same, or differ; whatever the pad byte;
nothing else changes but `pc`. Derived: the pad byte is decision D2. -/
def Obligations.EqualityResults : Prop :=
  ∀ (s : State) (a b pad : Byte) (ha : a.toNat < 32) (hb : b.toNat < 32), s.holds 4 →
    let A := s.readReg ⟨a.toNat, ha⟩
    let B := s.readReg ⟨b.toNat, hb⟩
    exec (.eq a b pad) s = .next { s with cmp := A == B, pc := s.pc + 4 } ∧
    exec (.notEq a b pad) s = .next { s with cmp := A != B, pc := s.pc + 4 }

/-- `Greater`, `Less`, `GreaterEq`, `LessEq` (R139, R142 to R146): `cmp` is the signed relation, first operand on the left;
whatever the pad byte; nothing else changes but `pc`. Derived: decisions D2 and D17. -/
def Obligations.OrderingResults : Prop :=
  ∀ (s : State) (a b pad : Byte) (ha : a.toNat < 32) (hb : b.toNat < 32), s.holds 4 →
    let A := s.readReg ⟨a.toNat, ha⟩
    let B := s.readReg ⟨b.toNat, hb⟩
    exec (.greater a b pad) s = .next { s with cmp := B.slt A, pc := s.pc + 4 } ∧
    exec (.less a b pad) s = .next { s with cmp := A.slt B, pc := s.pc + 4 } ∧
    exec (.greaterEq a b pad) s = .next { s with cmp := B.sle A, pc := s.pc + 4 } ∧
    exec (.lessEq a b pad) s = .next { s with cmp := A.sle B, pc := s.pc + 4 }

/-- `JumpEq` (R150): taken to the register's value when `cmp` is true; otherwise past the instruction, whatever the register
holds. Nothing else changes. Derived with R133's bounds (D8) and the index check (D16). -/
def Obligations.JumpEqResult : Prop :=
  ∀ (s : State) (r : Byte) (hr : r.toNat < 32), s.holds 2 →
    (s.cmp = true → 0 ≤ s.readInt ⟨r.toNat, hr⟩ →
      exec (.jumpEq r) s = .next { s with pc := s.readReg ⟨r.toNat, hr⟩ }) ∧
    (s.cmp = false → exec (.jumpEq r) s = .next { s with pc := s.pc + 2 })

/-- `JumpNeq` under policy `mirror` (R151): taken when `cmp` is false; otherwise past the instruction. Derived: decision D3. -/
def Obligations.JumpNeqMirrorResult : Prop :=
  ∀ (s : State) (r : Byte) (hr : r.toNat < 32), s.params.jumpNeq = .mirror → s.holds 2 →
    (s.cmp = false → 0 ≤ s.readInt ⟨r.toNat, hr⟩ →
      exec (.jumpNeq r) s = .next { s with pc := s.readReg ⟨r.toNat, hr⟩ }) ∧
    (s.cmp = true → exec (.jumpNeq r) s = .next { s with pc := s.pc + 2 })

/-- `JumpNeq` under policy `bad` (R151, R84): `InvalidOpcode` with the opcode byte as `info`, one byte consumed, whatever
follows it. Derived: decision D3. -/
def Obligations.JumpNeqBadRaises : Prop :=
  ∀ (s : State) (r : Byte), s.params.jumpNeq = .bad →
    exec (.jumpNeq r) s =
      .next (s.afterFault (.jumpNeq r) .invalidOpcode (opcodeByte s.params.opmap .jumpNeq) 1)

/-- `Halt` (R160): always completes, with `status` Halted and `pc` one past its byte. Derived: the latch is decision D10. -/
def Obligations.HaltResult : Prop :=
  ∀ s : State, exec .halt s = .next { s with status := .halted, pc := s.pc + 1 }

/-- Bad (R161): always takes `InvalidOpcode` with the byte as `info`, one byte consumed. Derived: the record is D13, D14. -/
def Obligations.BadRaises : Prop :=
  ∀ (s : State) (o : Byte), exec (.bad o) s = .next (s.afterFault (.bad o) .invalidOpcode o 1)

/-! ## Faults. -/

/-- `DivideByZero` (R124, R172, R173, R179): a zero divisor, whatever the dividend and whatever the overflow policy; nothing
is written but the latches and `pc`. Derived: decisions D13, D14. -/
def Obligations.DivideByZeroRaises : Prop :=
  ∀ (s : State) (a b d : Byte) (hb : b.toNat < 32), a.toNat < 32 → d.toNat < 32 → s.holds 4 →
    s.readReg ⟨b.toNat, hb⟩ = 0 →
    exec (.div a b d) s = .next (s.afterFault (.div a b d) .divideByZero b 4)

/-- `ArithOverflow` (R123, R172): under policy `fault`, `Add`, `Sub`, `Mul` whose exact result does not fit, and `Div` of
−2^31 by −1. Derived: decisions D4, D5. -/
def Obligations.ArithOverflowRaises : Prop :=
  ∀ (s : State) (a b d : Byte) (ha : a.toNat < 32) (hb : b.toNat < 32), d.toNat < 32 → s.holds 4 →
    s.params.overflow = .fault →
    let A := s.readInt ⟨a.toNat, ha⟩
    let B := s.readInt ⟨b.toNat, hb⟩
    (OutOfRange (A + B) → exec (.add a b d) s = .next (s.afterFault (.add a b d) .arithOverflow d 4)) ∧
    (OutOfRange (A - B) → exec (.sub a b d) s = .next (s.afterFault (.sub a b d) .arithOverflow d 4)) ∧
    (OutOfRange (A * B) → exec (.mul a b d) s = .next (s.afterFault (.mul a b d) .arithOverflow d 4)) ∧
    (A = -2147483648 → B = -1 → exec (.div a b d) s = .next (s.afterFault (.div a b d) .arithOverflow d 4))

/-- `PcOutOfRange` (R133, R172): a negative register value, a `JumpF` target above 2^32 − 1, a `JumpB` target below 0; for
the conditional jumps when they are taken. Derived: decision D8. -/
def Obligations.PcOutOfRangeRaises : Prop :=
  ∀ (s : State) (r : Byte) (hr : r.toNat < 32), s.holds 2 →
    let v := s.readInt ⟨r.toNat, hr⟩
    (v < 0 → exec (.jump r) s = .next (s.afterFault (.jump r) .pcOutOfRange r 2)) ∧
    (v < 0 ∨ (maxPc : Int) < s.pc.toNat + 2 + v →
      exec (.jumpF r) s = .next (s.afterFault (.jumpF r) .pcOutOfRange r 2)) ∧
    (v < 0 ∨ s.pc.toNat + 2 < v → exec (.jumpB r) s = .next (s.afterFault (.jumpB r) .pcOutOfRange r 2)) ∧
    (s.cmp = true → v < 0 → exec (.jumpEq r) s = .next (s.afterFault (.jumpEq r) .pcOutOfRange r 2)) ∧
    (s.params.jumpNeq = .mirror → s.cmp = false → v < 0 →
      exec (.jumpNeq r) s = .next (s.afterFault (.jumpNeq r) .pcOutOfRange r 2))

/-- `FetchPastEnd` (R53, R58, R176, R179), for every instruction with operands: the buffer ends at its `k`-th byte and no
index byte before it is out of range; `pc` is left at the missing offset. Derived: decisions D2, D12. -/
def Obligations.FetchPastEndRaises : Prop :=
  ∀ (i : Instr) (s : State) (k : Nat), 1 ≤ k → k < i.opId.length → s.pc.toNat + k = s.len →
    (∀ (j : Nat) (b : Byte), j + 1 < k → i.regBytes[j]? = some b → b.toNat < 32) → ¬ JumpNeqIsBad i s →
    exec i s = .next (s.afterFault i .fetchPastEnd 0 k)

/-- `RegIndexOutOfRange` (R22, R54, R176), for every instruction with register operands: its first index byte of 32 or more
is reported, although later bytes may be missing or bad, whether or not the register would be used; `pc` is left past it.
Derived: decisions D12, D16. -/
def Obligations.RegIndexOutOfRangeRaises : Prop :=
  ∀ (i : Instr) (s : State) (j : Nat) (b : Byte), i.regBytes[j]? = some b → 32 ≤ b.toNat →
    (∀ (k : Nat) (c : Byte), k < j → i.regBytes[k]? = some c → c.toNat < 32) → s.holds (j + 2) → ¬ JumpNeqIsBad i s →
    exec i s = .next (s.afterFault i .regIndexOutOfRange b (j + 2))

/-- Every instruction either completes with the fault latch as it was, or takes one fault, of which the record holds its own
offset and opcode byte, the cause is one the instruction raises on just this state and these operands, with `info` and `pc` as
the spec's tables say, and nothing but `pc` and the latches has changed (R172, R173, R174, R176, R178, R179). Derived:
decisions D8, D12, D13, D14. -/
def Obligations.FaultsArePreciseAndRecorded : Prop :=
  ∀ (i : Instr) (s t : State), exec i s = .next t →
    (t.fault = s.fault ∧ t.status = if i = .halt then .halted else s.status) ∨
    (∃ r, t = { s with pc := t.pc, status := .faulted, fault := some r } ∧
      r.ipc = s.pc ∧ r.opbyte = i.b0 s.params.opmap ∧ CauseFits i s t r)

/-- A fault that a step records names the offset the step began at and the byte that stands there; after `FetchPastEnd` the
program counter equals LEN (R31, R173, R179). Derived: decision D13; R179's last remark is the spec's own consequence. -/
def Obligations.StepRecordsFetchedOpbyte : Prop :=
  ∀ (s t : State) (r : FaultRecord), s.Inv → s.fault = none → step s = .next t → t.fault = some r →
    r.ipc = s.pc ∧ s.code.read s.pc.toNat = some r.opbyte ∧ (r.cause = .fetchPastEnd → t.pc.toNat = s.len)

/-! ## What each piece of state is written and read by. -/

/-- The frame of every instruction: a register other than its destination, `cmp` unless it is a comparison, `rem` unless it
is `Div`, every byte of the code buffer, and the parameters are unchanged; `status` and `fault` change only as `Halt` or a
fault entry changes them, which `FaultsArePreciseAndRecorded` states (R21, R27, R28, R51). Derived: R21 and R51 are the
spec's own consequences. -/
def Obligations.ExecFrame : Prop :=
  ∀ (i : Instr) (s t : State), exec i s = .next t →
    (∀ k : RegIdx, Instr.dest i ≠ some (BitVec.ofNat 8 k.val) → t.readReg k = s.readReg k) ∧
    (Instr.isComparison i = false → t.cmp = s.cmp) ∧
    (i.opId ≠ .assigned .div → t.rem = s.rem) ∧
    (∀ a : Nat, t.code.read a = s.code.read a) ∧
    t.len = s.len ∧ t.params = s.params

/-- R27: `cmp` is written only by the six comparisons, each of which overwrites it whatever it held when it completes, and
read only by `JumpEq`, and by `JumpNeq` under policy `mirror`: any other instruction does the same for every value of it. -/
def Obligations.CompareFlagWritersAndReaders : Prop :=
  ∀ (i : Instr) (s t : State), exec i s = .next t →
    (Instr.isComparison i = false → t.cmp = s.cmp) ∧
    (Instr.isComparison i = true → s.fault = none → t.fault = none → ∀ c, exec i (s.setCmp c) = .next t) ∧
    (¬ ReadsCmp i s → ∀ c, ∃ t', exec i (s.setCmp c) = .next t' ∧ t'.setCmp t.cmp = t)

/-- R28: `rem` is written only by a `Div` that completes without a fault, and no instruction reads it: every instruction
does the same for every value of it. It is visible only through `inspect`: every other transaction returns the same, and leaves
the same state but for `rem`, for every value of it, and `inspect` shows it. -/
def Obligations.RemainderWritersAndReaders : Prop :=
  (∀ (i : Instr) (s t : State), exec i s = .next t →
    (t.rem ≠ s.rem → i.opId = .assigned .div ∧ t.fault = s.fault ∧ t.status = s.status) ∧
    (∀ v, ∃ t', exec i (s.setRem v) = .next t' ∧ t'.setRem t.rem = t)) ∧
  (∀ (x : Transaction) (s t : State) (r : Response), x ≠ .inspect → transact x s = .next (t, r) →
    ∀ v, ∃ t', transact x (s.setRem v) = .next (t', r) ∧ t'.setRem t.rem = t) ∧
  (∀ s : State, ∃ view, transact .inspect s = .next (s, .inspected view) ∧ view.rem = s.rem)

/-- A conditional jump that is not taken does not read its register (R21, R150, R151): the registers may be anything. Derived:
decision D16. -/
def Obligations.NotTakenReadsNoRegister : Prop :=
  ∀ (s t : State) (r : Byte) (regs : Vector Word 32),
    (s.cmp = false → exec (.jumpEq r) s = .next t →
      exec (.jumpEq r) { s with regs := regs } = .next { t with regs := regs }) ∧
    (s.params.jumpNeq = .bad ∨ s.cmp = true → exec (.jumpNeq r) s = .next t →
      exec (.jumpNeq r) { s with regs := regs } = .next { t with regs := regs })

/-! ## The host's transactions. -/

/-- R32: the code buffer grows only at its end, one byte per `add_byte`; no transaction changes or removes a byte in it, only
`reset` empties it, and its length stays within the capacity. -/
def Obligations.CodeBufferIsAppendOnly : Prop :=
  ∀ (x : Transaction) (s t : State) (r : Response), transact x s = .next (t, r) →
    (x = .reset → t.code = []) ∧
    (x ≠ .reset → t.code = s.code ∨ ∃ b, x = .addByte b ∧ t.code = s.code ++ [(s.len, b)]) ∧
    (s.len ≤ s.params.codeCap → t.len ≤ t.params.codeCap)

/-- Halted and Faulted are sticky (R35, R181, R182): until `reset` no transaction changes anything but the code buffer, and
a tick repeats the outcome. Derived: decision D10. -/
def Obligations.TerminalStatesAreSticky : Prop :=
  (∀ (x : Transaction) (s t : State) (r : Response), s.status ≠ .running → x ≠ .reset → transact x s = .next (t, r) →
    t = { s with code := t.code }) ∧
  (∀ s : State, s.status = .halted → tick s = .next (s, .halted)) ∧
  (∀ (s : State) (r : FaultRecord), s.status = .faulted → s.fault = some r → tick s = .next (s, .fault r))

/-- A tick's outcome (R39, R95, R170, R171): `EndOfBuffer` exactly when it began Running with `pc ≥ LEN`, and then nothing
changed; `Halted` and `Fault` exactly when it ended so, `Fault` with the recorded fields; `Continue` exactly when it executed
an instruction and stayed Running. Derived: decisions D10, D11. -/
def Obligations.TickOutcomes : Prop :=
  ∀ s : State, s.Inv → ∃ t o, tick s = .next (t, o) ∧ step s = .next t ∧
    (o = .endOfBuffer ↔ s.status = .running ∧ s.len ≤ s.pc.toNat) ∧
    (o = .endOfBuffer → t = s) ∧
    (o = .halted ↔ t.status = .halted) ∧
    (∀ r, o = .fault r ↔ t.status = .faulted ∧ t.fault = some r) ∧
    (o = .continue ↔ s.status = .running ∧ s.pc.toNat < s.len ∧ t.status = .running)

/-- `add_byte` (R38): in any status, with room the byte stands at the old LEN and LEN grows by one; without room nothing
changes and the answer is `full`; no other state changes. Derived: decision D9. -/
def Obligations.AddByteResult : Prop :=
  ∀ (s : State) (b : Byte), s.code.wf →
    (s.len < s.params.codeCap → ∃ t, addByte b s = (t, .ok) ∧ t = { s with code := t.code } ∧ t.len = s.len + 1 ∧
      t.code.read s.len = some b ∧ ∀ a, a < s.len → t.code.read a = s.code.read a) ∧
    (s.params.codeCap ≤ s.len → addByte b s = (s, .full))

/-- The host's `reset` (R34, R37): every piece of state at its reset value, from any state. Derived: decision D15. -/
def Obligations.HostResetValues : Prop :=
  ∀ (s t : State) (r : Response), transact .reset s = .next (t, r) →
    (∀ k : RegIdx, t.readReg k = 0) ∧ t.pc = 0 ∧ t.cmp = false ∧ t.rem = 0 ∧ t.status = .running ∧ t.fault = none ∧
    t.len = 0 ∧ t.code = [] ∧ t.params = s.params

/-- Boot (R202, R107): after `reset`, appending the bytes of a program that fits leaves exactly them in the buffer, the first
at offset 0, and everything else at its reset value. Derived: decisions D9, D15. -/
def Obligations.BootLoadsProgram : Prop :=
  ∀ (s : State) (bs : List Byte), bs.length ≤ s.params.codeCap →
    ∃ t, addBytes bs (hostReset s) = t ∧ t = { hostReset s with code := t.code } ∧ t.code.wf ∧ t.code.bytes = bs

/-- Incremental feeding (R63, R136, R171, R203): a tick at the end of the buffer changes nothing, and after the bytes of an
instruction are appended there the very next step executes it. Derived: decisions D10, D11. -/
def Obligations.AppendedInstructionRuns : Prop :=
  ∀ (s : State) (i : Instr), s.Inv → s.status = .running → i.wellFormed = true → s.pc.toNat = s.len →
    s.len + i.opId.length ≤ s.params.codeCap →
    step s = .next s ∧
    step (addBytes (encode s.params.opmap i) s) = exec i (addBytes (encode s.params.opmap i) s)

/-- What stands in the buffer beyond a whole instruction has no part in it: appending a byte first or executing first comes
to the same (R55, R204). Derived: the spec's own consequence. -/
def Obligations.AppendCommutesWithExec : Prop :=
  ∀ (i : Instr) (s t : State) (b : Byte), s.holds i.opId.length → exec i s = .next t →
    exec i { s with code := s.code.append b } = .next { t with code := t.code.append b }

/-- `run` (R40): where it ends, it ended in an outcome other than `Continue`, more fuel changes nothing, and a further tick
repeats that outcome in that state (R181). Derived: decisions D10, D28, and assumption log 9 for the fuel. -/
def Obligations.RunEndsInTerminalOutcome : Prop :=
  ∀ (n : Nat) (s t : State) (o : TickOutcome), run n s = .next (t, some o) →
    o ≠ .continue ∧ (∀ k, run (n + k) s = .next (t, some o)) ∧ tick t = .next (t, o)

/-- `inspect` (R41) changes nothing and shows every field and the whole buffer. Derived: decision D25. -/
def Obligations.InspectShowsAllState : Prop :=
  ∀ (s : State), s.code.wf → ∃ v, transact .inspect s = .next (s, .inspected v) ∧
    v.regs = s.regs ∧ v.pc = s.pc ∧ v.cmp = s.cmp ∧ v.rem = s.rem ∧ v.status = s.status ∧ v.fault = s.fault ∧
    v.len = s.len ∧ v.code.length = s.len ∧ ∀ a, v.code[a]? = s.code.read a

/-! ## The assembler. -/

/-- Lexing always reaches `Eof`, once and last, and at the end of the input `token()` answers `Eof` for ever (R101). Derived:
the fuel of the lexer is assumption log 9. -/
def Obligations.LexerEndsInEof : Prop :=
  (∀ src : List Byte, ∃ body last, Asm.lexSource src = body ++ [last] ∧ last.token = .eof ∧
    ∀ x ∈ body, x.token ≠ .eof) ∧
  (∀ l : Asm.Lexer, l.rest = [] → (Asm.nextToken l).1.token = .eof ∧ (Asm.nextToken l).2 = l)

/-- Every parsed instruction has exactly as many operands as its opcode's arity, of its opcode's kinds, no label, and so
stands for an instruction of the engine (R102, R103, R108). Derived: decisions D19, D22. -/
def Obligations.ParsedOperandsFitOpcode : Prop :=
  ∀ (p : Params) (src : List Byte) (i : Asm.AsmInstr), i ∈ (Asm.parseSource src).instrs →
    i.operands.length = i.op.arity ∧ i.label = none ∧ ∃ j, Asm.toInstr p i = some j ∧ j.opId = .assigned i.op

/-- The lexer's tokens with a value (R98 to R101): a spelling of an opcode that no letter follows is its `Op`; `$` and one or
more hex digits, up to no further hex digit, the `Reg` of the low 8 bits of their value, `InvalidReg` above 2^32 − 1; `#` and
decimal digits likewise the `Int` of their value, `InvalidInt` above 2^31 − 1; with the span and line they stand at, and the
lexer goes on after them. Derived: decisions D18, D21, D26. -/
def Obligations.LexerReadsOpcodesAndLiterals : Prop :=
  ∀ (run rest : List Byte) (pos line : Nat),
    (∀ o : Opcode, run ∈ Asm.spellings o → rest.head?.all (fun b => !Asm.isLetter b) = true →
      Asm.nextToken { rest := run ++ rest, pos := pos, line := line } =
        ({ token := .op o, start := pos, stop := pos + run.length, line := line },
          { rest := rest, pos := pos + run.length, line := line })) ∧
    (run ≠ [] → run.all Asm.isHexDigit = true → rest.head?.all (fun b => !Asm.isHexDigit b) = true →
      let n := Nat.ofDigits 16 (run.reverse.map Asm.digitValue)
      Asm.nextToken { rest := 0x24 :: run ++ rest, pos := pos, line := line } =
        ({ token := if n ≤ 4294967295 then .reg (BitVec.ofNat 8 n) else .invalidReg, start := pos,
           stop := pos + run.length + 1, line := line },
          { rest := rest, pos := pos + run.length + 1, line := line })) ∧
    (run ≠ [] → run.all Asm.isDecDigit = true → rest.head?.all (fun b => !Asm.isDecDigit b) = true →
      let n := Nat.ofDigits 10 (run.reverse.map Asm.digitValue)
      Asm.nextToken { rest := 0x23 :: run ++ rest, pos := pos, line := line } =
        ({ token := if n ≤ 2147483647 then .int (BitVec.ofNat 32 n) else .invalidInt, start := pos,
           stop := pos + run.length + 1, line := line },
          { rest := rest, pos := pos + run.length + 1, line := line }))

/-- A program is parsed line by line (R102, R104): the lines are the token stream cut at each `Newline` and at `Eof`, with
nothing lost, and what the parse gives is what its lines give, in order; so instructions and errors together are as many as the
lines with a token. Derived: cutting the stream so is the model's form of the recovery (assumption log 12). -/
def Obligations.ProgramIsParsedByLines : Prop :=
  ∀ src : List Byte,
    let ls := Asm.splitLines [] (Asm.lexSource src)
    (ls.flatMap fun l => l.tokens ++ [l.last]) = Asm.lexSource src ∧
    (∀ l ∈ ls, Asm.EndsLine l.last.token ∧ ∀ x ∈ l.tokens, ¬ Asm.EndsLine x.token) ∧
    (Asm.parseSource src).instrs = (ls.flatMap fun l => (Asm.parseLines [l]).instrs) ∧
    (Asm.parseSource src).errors = (ls.flatMap fun l => (Asm.parseLines [l]).errors) ∧
    (Asm.parseSource src).instrs.length + (Asm.parseSource src).errors.length = (ls.filter fun l => l.tokens ≠ []).length

/-- Each line gives one instruction or one error (R102 to R104): a line that is an opcode and exactly its operands, each of its
kind, gives that instruction and no error; every other line with a token gives one error, which carries a token of the line or
the one that ends it, and no instruction; a line with no token gives nothing. Derived: the kinds are decision D19, an extra
operand is assumption log 12. -/
def Obligations.EachLineGivesInstrOrError : Prop :=
  (∀ (l : Asm.Line) (i : Asm.AsmInstr), Asm.LineWrites l i → Asm.parseLines [l] = { instrs := [i], errors := [] }) ∧
  (∀ l : Asm.Line, l.tokens ≠ [] → (¬ ∃ i, Asm.LineWrites l i) →
    ∃ e, Asm.parseLines [l] = { instrs := [], errors := [e] } ∧ e.found ∈ l.tokens ++ [l.last]) ∧
  (∀ l : Asm.Line, l.tokens = [] → Asm.parseLines [l] = { instrs := [], errors := [] })

/-- The encoder and the decoder agree (R105, R107, R109): for every source text and all legal parameters, a straight-line
decode of the assembled bytes gives the instructions of the program, in order. Derived: decisions D1, D2, D19. -/
def Obligations.AssembledProgramDecodes : Prop :=
  ∀ (p : Params) (src : List Byte), p.Legal →
    ∃ is, (Asm.parseSource src).instrs.mapM (Asm.toInstr p) = some is ∧
      decodeStream p.opmap (Asm.assembleSource p src).length (Asm.assembleSource p src) = some is

/-- R107: a program's bytes are its instructions' bytes in source order with nothing between them, so the k-th instruction
starts at the sum of the lengths of R79 of those before it, the first at offset 0; for every source text. -/
def Obligations.ProgramOffsetsAreLengthSums : Prop :=
  ∀ (p : Params) (src : List Byte) (k : Nat),
    (Asm.assembleSource p src).drop
        (((Asm.parseSource src).instrs.take k).map fun i => (OpId.assigned i.op).length).sum =
      ((Asm.parseSource src).instrs.drop k).flatMap (Asm.encodeAsm p)

/-- A literal is encoded as its low 16 bits, high byte first (R105, R106). Derived: decision D20. -/
def Obligations.LiteralIsTruncated : Prop :=
  ∀ (p : Params) (r : Byte) (v : Word) (line : Nat) (label : Option (List Byte)),
    Asm.encodeAsm p { op := .load, operands := [.reg r, .int v], line := line, label := label } =
      [opcodeByte p.opmap .load, r, BitVec.ofNat 8 (v.toNat % 65536 / 256), BitVec.ofNat 8 (v.toNat % 256)]
end

