-- ==== Sys2Proof/Laws/Assembler.lean ====
section
/-! SUPPORT. What the parser's shared operations can do (R102 to R104): a line at a time, and an operand list exactly when its
tokens are operands of the kinds in order. -/

namespace Sys2Proof.Asm

/-- A program's lines are parsed one at a time. -/
theorem parseLines_cons (l : Line) (ls : List Line) : parseLines (l :: ls) =
    { instrs := (parseLines [l]).instrs ++ (parseLines ls).instrs
      errors := (parseLines [l]).errors ++ (parseLines ls).errors } := by
  simp only [parseLines]
  cases l.tokens with
  | nil => rfl
  | cons x xs => simp only; cases parseInstr x xs l.last <;> rfl

/-- A slot takes an operand exactly when the token writes it and it is of the slot's kind. -/
theorem parseOperand_ok_iff (k : OperandKind) (x : Lexeme) (o : Operand) :
    parseOperand k x = .ok o ↔ x.token = o.token ∧ o.kind = k := by
  unfold parseOperand
  split <;> cases o <;> simp_all [Operand.token, Operand.kind] <;> simp_all [eq_comm]
  all_goals
    rintro h rfl
    simp_all

/-- The operand list of an opcode is taken exactly when the tokens are operands of its kinds in order, and no more. -/
theorem parseOperands_ok_iff (ks : List OperandKind) (xs : List Lexeme) (last : Lexeme) (os : List Operand) :
    parseOperands ks xs last = .ok os ↔ xs.map Lexeme.token = os.map Operand.token ∧ os.map Operand.kind = ks := by
  induction ks generalizing xs os with
  | nil => cases xs <;> cases os <;> simp [parseOperands]
  | cons k ks ih =>
    cases xs with
    | nil => cases os <;> simp [parseOperands]
    | cons x xs =>
      simp only [parseOperands, bind, Except.bind, pure, Except.pure]
      cases ho : parseOperand k x with
      | error e =>
        cases os with
        | nil => simp
        | cons o os =>
          have h := (parseOperand_ok_iff k x o).not.mp (by simp [ho])
          simp only [reduceCtorEq, List.map_cons, List.cons.injEq, false_iff]
          exact fun ⟨⟨h1, _⟩, h2, _⟩ => h ⟨h1, h2⟩
      | ok o =>
        have h := (parseOperand_ok_iff k x o).mp ho
        cases hs : parseOperands ks xs last with
        | error e =>
          cases os with
          | nil => simp
          | cons o' os =>
            have h' := (ih xs os).not.mp (by simp [hs])
            simp only [reduceCtorEq, List.map_cons, List.cons.injEq, false_iff]
            exact fun ⟨⟨_, h1⟩, _, h2⟩ => h' ⟨h1, h2⟩
        | ok os' =>
          have h' := (ih xs os').mp hs
          cases os with
          | nil => simp
          | cons o' os =>
            have h1 := (ih xs os)
            have h0 := (parseOperand_ok_iff k x o')
            simp only [ho, hs, Except.ok.injEq] at h0 h1
            simp only [Except.ok.injEq, List.cons.injEq, List.map_cons, h0, h1]
            tauto

end Sys2Proof.Asm
end

