-- ==== Sys2Proof/Laws/Decode.lean ====
section
/-! SUPPORT. The opcode map: a legal `OPMAP` gives every opcode a byte of its own, and decoding that byte gives it back. -/

namespace Sys2Proof

theorem defaultOpMap_legal : OpMapLegal defaultOpMap := by decide

theorem OpMapLegal.length {m : List Opcode} (h : OpMapLegal m) : m.length = 16 := h.1.length_eq

theorem OpMapLegal.nodup {m : List Opcode} (h : OpMapLegal m) : m.Nodup := h.1.nodup_iff.mpr (by decide)

theorem OpMapLegal.mem {m : List Opcode} (h : OpMapLegal m) {op : Opcode} (hop : op ≠ .halt) : op ∈ m :=
  h.1.mem_iff.mpr (by cases op <;> first | exact absurd rfl hop | decide)

theorem OpMapLegal.halt_not_mem {m : List Opcode} (h : OpMapLegal m) : Opcode.halt ∉ m :=
  fun hm => absurd (h.1.mem_iff.mp hm) (by decide)

theorem OpMapLegal.idxOf_lt {m : List Opcode} (h : OpMapLegal m) {op : Opcode} (hop : op ≠ .halt) : m.idxOf op < 16 := by
  rw [← h.length]
  exact List.idxOf_lt_length_of_mem (h.mem hop)

/-- An assigned opcode's byte is below 16 (R8). -/
theorem OpMapLegal.opcodeByte_toNat {m : List Opcode} (h : OpMapLegal m) {op : Opcode} (hop : op ≠ .halt) :
    (opcodeByte m op).toNat = m.idxOf op := by
  have := h.idxOf_lt hop
  simp [opcodeByte, hop]
  omega

/-- Decoding an opcode's byte gives the opcode (R77). -/
theorem OpMapLegal.decodeByte_opcodeByte {m : List Opcode} (h : OpMapLegal m) (op : Opcode) :
    decodeByte m (opcodeByte m op) = .assigned op := by
  by_cases hop : op = .halt
  · subst hop
    simp [opcodeByte, decodeByte]
  · have hlt := h.idxOf_lt hop
    have hn := h.opcodeByte_toNat hop
    have hne : opcodeByte m op ≠ haltCode := by
      intro e
      rw [e] at hn
      simp [haltCode] at hn
      omega
    simp [decodeByte, hne, hn, List.getElem?_idxOf (h.mem hop)]

/-- The byte that decodes to an opcode is that opcode's byte. -/
theorem OpMapLegal.opcodeByte_of_decodeByte {m : List Opcode} (h : OpMapLegal m) {b : Byte} {op : Opcode}
    (hd : decodeByte m b = .assigned op) : opcodeByte m op = b := by
  unfold decodeByte at hd
  split at hd
  · next hb =>
    cases hd
    simp [opcodeByte, hb]
  · split at hd
    · next o ho =>
      cases hd
      obtain ⟨hlt, hget⟩ := List.getElem?_eq_some_iff.mp ho
      have hop : op ≠ .halt := by
        rintro rfl
        exact h.halt_not_mem (hget ▸ List.getElem_mem hlt)
      apply BitVec.eq_of_toNat_eq
      rw [h.opcodeByte_toNat hop, ← hget]
      exact h.nodup.idxOf_getElem _ hlt
    · cases hd

/-- Exactly the unassigned bytes decode to `Bad` (R77). -/
theorem OpMapLegal.decodeByte_bad_iff {m : List Opcode} (h : OpMapLegal m) (b : Byte) :
    decodeByte m b = .bad ↔ Byte.unassigned b = true := by
  unfold decodeByte Byte.unassigned
  by_cases hb : b = haltCode
  · simp [hb]
  · by_cases hlt : b.toNat < 16
    · rw [← h.length] at hlt
      simp [hb, List.getElem?_eq_getElem hlt, h.length ▸ hlt]
    · have : m[b.toNat]? = none := List.getElem?_eq_none (by rw [h.length]; omega)
      simp [hb, this, Nat.le_of_not_lt hlt]

theorem immOf_hi_lo (imm : Imm) : immOf (immHi imm) (immLo imm) = imm := by
  apply BitVec.eq_of_getLsbD_eq
  intro i hi
  simp only [immOf, immHi, immLo, BitVec.getLsbD_append, BitVec.getLsbD_extractLsb']
  by_cases h : i < 8
  · simp [h]
  · have : 8 + (i - 8) = i := by omega
    simp [h, this, show i - 8 < 8 by omega]

theorem immHi_immOf (hi lo : Byte) : immHi (immOf hi lo) = hi := by
  apply BitVec.eq_of_getLsbD_eq
  intro i h
  simp only [immOf, immHi, BitVec.getLsbD_extractLsb', BitVec.getLsbD_append]
  simp [h]

theorem immLo_immOf (hi lo : Byte) : immLo (immOf hi lo) = lo := by
  apply BitVec.eq_of_getLsbD_eq
  intro i h
  simp only [immOf, immLo, BitVec.getLsbD_extractLsb', BitVec.getLsbD_append]
  simp [h]

/-- The immediate is `256 × B2 + B3` (R80). -/
theorem immOf_toNat (hi lo : Byte) : (immOf hi lo).toNat = 256 * hi.toNat + lo.toNat := by
  simp only [immOf, BitVec.toNat_append, Nat.shiftLeft_eq]
  have h := lo.isLt
  rw [Nat.mul_comm, ← Nat.two_pow_add_eq_or_of_lt h]

end Sys2Proof
end

