-- ==== Sys2Proof/Laws/State.lean ====
section
/-! SUPPORT. One lemma per field per state update, so that no proof unfolds a record update. -/

namespace Sys2Proof.Machine

@[simp] theorem State.setReg_regs (s : State) (i : RegIdx) (v : Word) : (s.setReg i v).regs = s.regs.set i.val v i.isLt := rfl
@[simp] theorem State.setReg_pc (s : State) (i : RegIdx) (v : Word) : (s.setReg i v).pc = s.pc := rfl
@[simp] theorem State.setReg_cmp (s : State) (i : RegIdx) (v : Word) : (s.setReg i v).cmp = s.cmp := rfl
@[simp] theorem State.setReg_rem (s : State) (i : RegIdx) (v : Word) : (s.setReg i v).rem = s.rem := rfl
@[simp] theorem State.setReg_status (s : State) (i : RegIdx) (v : Word) : (s.setReg i v).status = s.status := rfl
@[simp] theorem State.setReg_fault (s : State) (i : RegIdx) (v : Word) : (s.setReg i v).fault = s.fault := rfl
@[simp] theorem State.setReg_code (s : State) (i : RegIdx) (v : Word) : (s.setReg i v).code = s.code := rfl
@[simp] theorem State.setReg_params (s : State) (i : RegIdx) (v : Word) : (s.setReg i v).params = s.params := rfl
@[simp] theorem State.setReg_len (s : State) (i : RegIdx) (v : Word) : (s.setReg i v).len = s.len := by rfl

@[simp] theorem State.setPc_regs (s : State) (t : Nat) : (s.setPc t).regs = s.regs := rfl
@[simp] theorem State.setPc_pc (s : State) (t : Nat) : (s.setPc t).pc = BitVec.ofNat 32 t := rfl
@[simp] theorem State.setPc_cmp (s : State) (t : Nat) : (s.setPc t).cmp = s.cmp := rfl
@[simp] theorem State.setPc_rem (s : State) (t : Nat) : (s.setPc t).rem = s.rem := rfl
@[simp] theorem State.setPc_status (s : State) (t : Nat) : (s.setPc t).status = s.status := rfl
@[simp] theorem State.setPc_fault (s : State) (t : Nat) : (s.setPc t).fault = s.fault := rfl
@[simp] theorem State.setPc_code (s : State) (t : Nat) : (s.setPc t).code = s.code := rfl
@[simp] theorem State.setPc_params (s : State) (t : Nat) : (s.setPc t).params = s.params := rfl
@[simp] theorem State.setPc_len (s : State) (t : Nat) : (s.setPc t).len = s.len := by rfl
@[simp] theorem State.setPc_readReg (s : State) (t : Nat) (k : RegIdx) : (s.setPc t).readReg k = s.readReg k := by rfl
@[simp] theorem State.setPc_readInt (s : State) (t : Nat) (k : RegIdx) : (s.setPc t).readInt k = s.readInt k := by rfl

@[simp] theorem State.setCmp_regs (s : State) (b : Bool) : (s.setCmp b).regs = s.regs := rfl
@[simp] theorem State.setCmp_pc (s : State) (b : Bool) : (s.setCmp b).pc = s.pc := rfl
@[simp] theorem State.setCmp_cmp (s : State) (b : Bool) : (s.setCmp b).cmp = b := rfl
@[simp] theorem State.setCmp_rem (s : State) (b : Bool) : (s.setCmp b).rem = s.rem := rfl
@[simp] theorem State.setCmp_status (s : State) (b : Bool) : (s.setCmp b).status = s.status := rfl
@[simp] theorem State.setCmp_fault (s : State) (b : Bool) : (s.setCmp b).fault = s.fault := rfl
@[simp] theorem State.setCmp_code (s : State) (b : Bool) : (s.setCmp b).code = s.code := rfl
@[simp] theorem State.setCmp_params (s : State) (b : Bool) : (s.setCmp b).params = s.params := rfl
@[simp] theorem State.setCmp_len (s : State) (b : Bool) : (s.setCmp b).len = s.len := by rfl
@[simp] theorem State.setCmp_readReg (s : State) (b : Bool) (k : RegIdx) : (s.setCmp b).readReg k = s.readReg k := by rfl
@[simp] theorem State.setCmp_readInt (s : State) (b : Bool) (k : RegIdx) : (s.setCmp b).readInt k = s.readInt k := by rfl

@[simp] theorem State.setRem_regs (s : State) (v : Word) : (s.setRem v).regs = s.regs := rfl
@[simp] theorem State.setRem_pc (s : State) (v : Word) : (s.setRem v).pc = s.pc := rfl
@[simp] theorem State.setRem_cmp (s : State) (v : Word) : (s.setRem v).cmp = s.cmp := rfl
@[simp] theorem State.setRem_rem (s : State) (v : Word) : (s.setRem v).rem = v := rfl
@[simp] theorem State.setRem_status (s : State) (v : Word) : (s.setRem v).status = s.status := rfl
@[simp] theorem State.setRem_fault (s : State) (v : Word) : (s.setRem v).fault = s.fault := rfl
@[simp] theorem State.setRem_code (s : State) (v : Word) : (s.setRem v).code = s.code := rfl
@[simp] theorem State.setRem_params (s : State) (v : Word) : (s.setRem v).params = s.params := rfl
@[simp] theorem State.setRem_len (s : State) (v : Word) : (s.setRem v).len = s.len := by rfl
@[simp] theorem State.setRem_readReg (s : State) (v : Word) (k : RegIdx) : (s.setRem v).readReg k = s.readReg k := by rfl
@[simp] theorem State.setRem_readInt (s : State) (v : Word) (k : RegIdx) : (s.setRem v).readInt k = s.readInt k := by rfl

@[simp] theorem State.setStatus_regs (s : State) (v : Status) : (s.setStatus v).regs = s.regs := rfl
@[simp] theorem State.setStatus_pc (s : State) (v : Status) : (s.setStatus v).pc = s.pc := rfl
@[simp] theorem State.setStatus_cmp (s : State) (v : Status) : (s.setStatus v).cmp = s.cmp := rfl
@[simp] theorem State.setStatus_rem (s : State) (v : Status) : (s.setStatus v).rem = s.rem := rfl
@[simp] theorem State.setStatus_status (s : State) (v : Status) : (s.setStatus v).status = v := rfl
@[simp] theorem State.setStatus_fault (s : State) (v : Status) : (s.setStatus v).fault = s.fault := rfl
@[simp] theorem State.setStatus_code (s : State) (v : Status) : (s.setStatus v).code = s.code := rfl
@[simp] theorem State.setStatus_params (s : State) (v : Status) : (s.setStatus v).params = s.params := rfl
@[simp] theorem State.setStatus_len (s : State) (v : Status) : (s.setStatus v).len = s.len := by rfl
@[simp] theorem State.setStatus_readReg (s : State) (v : Status) (k : RegIdx) : (s.setStatus v).readReg k = s.readReg k := by rfl
@[simp] theorem State.setStatus_readInt (s : State) (v : Status) (k : RegIdx) : (s.setStatus v).readInt k = s.readInt k := by rfl

@[simp] theorem takeFault_regs (o : Byte) (e : Raised) (s : State) : (takeFault o e s).regs = s.regs := rfl
@[simp] theorem takeFault_pc (o : Byte) (e : Raised) (s : State) : (takeFault o e s).pc = BitVec.ofNat 32 e.pc := rfl
@[simp] theorem takeFault_cmp (o : Byte) (e : Raised) (s : State) : (takeFault o e s).cmp = s.cmp := rfl
@[simp] theorem takeFault_rem (o : Byte) (e : Raised) (s : State) : (takeFault o e s).rem = s.rem := rfl
@[simp] theorem takeFault_status (o : Byte) (e : Raised) (s : State) : (takeFault o e s).status = .faulted := rfl
@[simp] theorem takeFault_fault (o : Byte) (e : Raised) (s : State) : (takeFault o e s).fault = some { cause := e.cause, ipc := s.pc, opbyte := o, info := e.info } := rfl
@[simp] theorem takeFault_code (o : Byte) (e : Raised) (s : State) : (takeFault o e s).code = s.code := rfl
@[simp] theorem takeFault_params (o : Byte) (e : Raised) (s : State) : (takeFault o e s).params = s.params := rfl
@[simp] theorem takeFault_len (o : Byte) (e : Raised) (s : State) : (takeFault o e s).len = s.len := by rfl
@[simp] theorem takeFault_readReg (o : Byte) (e : Raised) (s : State) (k : RegIdx) : (takeFault o e s).readReg k = s.readReg k := by rfl

@[simp] theorem hostReset_regs (s : State) : (hostReset s).regs = Vector.replicate 32 0 := rfl
@[simp] theorem hostReset_pc (s : State) : (hostReset s).pc = 0 := rfl
@[simp] theorem hostReset_cmp (s : State) : (hostReset s).cmp = false := rfl
@[simp] theorem hostReset_rem (s : State) : (hostReset s).rem = 0 := rfl
@[simp] theorem hostReset_status (s : State) : (hostReset s).status = .running := rfl
@[simp] theorem hostReset_fault (s : State) : (hostReset s).fault = none := rfl
@[simp] theorem hostReset_code (s : State) : (hostReset s).code = [] := rfl
@[simp] theorem hostReset_params (s : State) : (hostReset s).params = s.params := rfl
@[simp] theorem hostReset_len (s : State) : (hostReset s).len = 0 := by rfl

/-- A register read after a write gives the value written, and any other register is left alone (R12). -/
theorem State.setReg_readReg (s : State) (i k : RegIdx) (v : Word) :
    (s.setReg i v).readReg k = if i = k then v else s.readReg k := by
  simp [State.readReg, Vector.getElem_set, Fin.ext_iff]

@[simp] theorem State.setReg_readReg_same (s : State) (i : RegIdx) (v : Word) : (s.setReg i v).readReg i = v := by
  simp [State.setReg_readReg]

theorem State.setReg_readReg_ne (s : State) {i k : RegIdx} (v : Word) (h : i ≠ k) :
    (s.setReg i v).readReg k = s.readReg k := by
  simp [State.setReg_readReg, h]

/-- Two states that agree on every field are equal. -/
theorem State.ext_fields {s t : State} (hr : s.regs = t.regs) (hp : s.pc = t.pc) (hc : s.cmp = t.cmp) (hm : s.rem = t.rem)
    (hs : s.status = t.status) (hf : s.fault = t.fault) (hb : s.code = t.code) (hq : s.params = t.params) : s = t := by
  cases s
  cases t
  simp_all

/-- The next program counter of a live count of `n` bytes past `ipc`: the wrap of R15's exact value to 32 bits. -/
theorem State.ofNat_pc_add (s : State) (n : Nat) : BitVec.ofNat 32 (s.pc.toNat + n) = s.pc + BitVec.ofNat 32 n := by
  apply BitVec.eq_of_toNat_eq
  simp

end Sys2Proof.Machine
end

