-- ==== Sys2Proof/Laws/Memory.lean ====
section
/-! SUPPORT. The code buffer: every operation keeps its canonical form, and what a read gives (R32, R52, R60). -/

namespace Sys2Proof.Machine

theorem Memory.ofBytesFrom_keys (k : Nat) (bs : List Byte) :
    (Memory.ofBytesFrom k bs).map Prod.fst = List.range' k bs.length := by
  induction bs generalizing k with
  | nil => rfl
  | cons b bs ih => simp [Memory.ofBytesFrom, ih, List.range'_succ]

@[simp] theorem Memory.ofBytesFrom_length (k : Nat) (bs : List Byte) : (Memory.ofBytesFrom k bs).length = bs.length := by
  have h := congrArg List.length (Memory.ofBytesFrom_keys k bs)
  simpa using h

@[simp] theorem Memory.ofBytesFrom_bytes (k : Nat) (bs : List Byte) : (Memory.ofBytesFrom k bs).bytes = bs := by
  induction bs generalizing k with
  | nil => rfl
  | cons b bs ih => simpa [Memory.ofBytesFrom, Memory.bytes] using ih (k + 1)

theorem Memory.ofBytes_wf (bs : List Byte) : (Memory.ofBytes bs).wf := by
  simp [Memory.wf, Memory.ofBytes, Memory.ofBytesFrom_keys]

@[simp] theorem Memory.ofBytes_bytes (bs : List Byte) : (Memory.ofBytes bs).bytes = bs :=
  Memory.ofBytesFrom_bytes 0 bs

/-- The empty buffer of reset has the canonical form (R34). -/
theorem Memory.empty_wf : Memory.wf [] := rfl

theorem Memory.place_wf (m : Memory) (a : Nat) (bs : List Byte) : (m.place a bs).wf := Memory.ofBytes_wf _

/-- Appending keeps the canonical form (R38). -/
theorem Memory.append_wf {m : Memory} (b : Byte) (h : m.wf) : (m.append b).wf := by
  unfold Memory.wf Memory.append at *
  simp [h, List.range'_concat]

@[simp] theorem Memory.append_length (m : Memory) (b : Byte) : (m.append b).length = m.length + 1 := by
  simp [Memory.append]

@[simp] theorem Memory.append_bytes (m : Memory) (b : Byte) : (m.append b).bytes = m.bytes ++ [b] := by
  simp [Memory.append, Memory.bytes]

theorem Memory.bytes_length (m : Memory) : m.bytes.length = m.length := by
  simp [Memory.bytes]

/-- What a read gives in a run of cells with consecutive offsets. -/
theorem Memory.read_range (m : Memory) (k a : Nat) (h : m.map Prod.fst = List.range' k m.length) (hk : k ≤ a) :
    m.read a = m.bytes[a - k]? := by
  induction m generalizing k with
  | nil => simp [Memory.read, Memory.bytes]
  | cons c m ih =>
    obtain ⟨o, b⟩ := c
    simp only [List.map_cons, List.length_cons, List.range'_succ, List.cons.injEq] at h
    obtain ⟨rfl, h⟩ := h
    by_cases e : o = a
    · subst e
      simp [Memory.read, Memory.bytes]
    · have hlt : o + 1 ≤ a := by omega
      have hs : a - o = (a - (o + 1)) + 1 := by omega
      simp only [Memory.read, e, if_false, ih (o + 1) h hlt, Memory.bytes, List.map_cons, hs,
        List.getElem?_cons_succ]

/-- In canonical form a read gives the byte at that place of the sequence of bytes (R13). -/
theorem Memory.read_eq {m : Memory} (h : m.wf) (a : Nat) : m.read a = m.bytes[a]? := by
  simpa using Memory.read_range m 0 a h (Nat.zero_le a)

/-- In canonical form an offset holds a byte exactly when it is below LEN (R52). -/
theorem Memory.read_isSome_iff {m : Memory} (h : m.wf) (a : Nat) : (m.read a).isSome ↔ a < m.length := by
  rw [Memory.read_eq h, ← Memory.bytes_length]
  simp

theorem Memory.read_lt {m : Memory} (h : m.wf) {a : Nat} (ha : a < m.length) : ∃ b, m.read a = some b :=
  Option.isSome_iff_exists.mp ((Memory.read_isSome_iff h a).mpr ha)

/-- A byte once in the buffer reads the same after an append (R60). -/
theorem Memory.append_read {m : Memory} (h : m.wf) (b : Byte) {a : Nat} (ha : a < m.length) :
    (m.append b).read a = m.read a := by
  rw [Memory.read_eq (Memory.append_wf b h), Memory.read_eq h, Memory.append_bytes,
    List.getElem?_append_left (by simpa [Memory.bytes_length] using ha)]

/-- The byte appended is read at the old LEN (R38, R63). -/
theorem Memory.append_read_last {m : Memory} (h : m.wf) (b : Byte) : (m.append b).read m.length = some b := by
  rw [Memory.read_eq (Memory.append_wf b h), Memory.append_bytes]
  simp [← Memory.bytes_length]

end Sys2Proof.Machine
end

