-- ==== Sys2Proof/Laws/Operands.lean ====
section
/-! SUPPORT. What the shared operations can do: the fetch primitives and operand forms (R53, R54, R71 to R75), SetPc (R133)
and the overflow law (R123). Each has a lemma for the bytes that are there, and one that says all its answers. -/

namespace Sys2Proof.Machine

/-- An index byte that names a register has that register's value. -/
theorem State.operand_eq {s : State} {b : Byte} (h : b.toNat < 32) : s.operand b = s.readInt ⟨b.toNat, h⟩ := by
  simp [State.operand, h]

theorem fetch8_ok {s : State} {pc : Nat} (h : pc < s.len) : fetch8 s pc = .ok (pc + 1) := by
  simp [fetch8, Nat.not_le.mpr h]

theorem fetch8_end {s : State} {pc : Nat} (h : s.len ≤ pc) :
    fetch8 s pc = .error { cause := .fetchPastEnd, info := 0, pc := pc } := by
  simp [fetch8, h]

theorem fetchReg_ok {b : Byte} {s : State} {pc : Nat} (h : pc < s.len) (hb : b.toNat < 32) :
    fetchReg b s pc = .ok { r := ⟨b.toNat, hb⟩, pc := pc + 1 } := by
  simp [fetchReg, fetch8_ok h, hb]

theorem fetchReg_end {b : Byte} {s : State} {pc : Nat} (h : s.len ≤ pc) :
    fetchReg b s pc = .error { cause := .fetchPastEnd, info := 0, pc := pc } := by
  simp [fetchReg, fetch8_end h]

theorem fetchReg_badIndex {b : Byte} {s : State} {pc : Nat} (h : pc < s.len) (hb : 32 ≤ b.toNat) :
    fetchReg b s pc = .error { cause := .regIndexOutOfRange, info := b, pc := pc + 1 } := by
  simp [fetchReg, fetch8_ok h, Nat.not_lt.mpr hb]

/-- All that `FetchReg` can answer (R54). -/
theorem fetchReg_cases (b : Byte) (s : State) (pc : Nat) :
    (s.len ≤ pc ∧ fetchReg b s pc = .error { cause := .fetchPastEnd, info := 0, pc := pc }) ∨
    (pc < s.len ∧ 32 ≤ b.toNat ∧ fetchReg b s pc = .error { cause := .regIndexOutOfRange, info := b, pc := pc + 1 }) ∨
    (pc < s.len ∧ ∃ hb : b.toNat < 32, fetchReg b s pc = .ok { r := ⟨b.toNat, hb⟩, pc := pc + 1 }) := by
  by_cases h : s.len ≤ pc
  · exact .inl ⟨h, fetchReg_end h⟩
  · have h' := Nat.lt_of_not_le h
    by_cases hb : b.toNat < 32
    · exact .inr (.inr ⟨h', hb, fetchReg_ok h' hb⟩)
    · exact .inr (.inl ⟨h', Nat.le_of_not_lt hb, fetchReg_badIndex h' (Nat.le_of_not_lt hb)⟩)

/-! ## The operand forms when the whole instruction is in the buffer and its registers exist. -/

theorem formR_ok {r : Byte} {s : State} (h : s.holds 2) (hr : r.toNat < 32) :
    formR r s = .ok { r := ⟨r.toNat, hr⟩, pc := s.pc.toNat + 2 } := by
  simp only [State.holds] at h
  exact fetchReg_ok (by simp only [State.afterOpcode]; omega) hr

theorem formRI_ok {r : Byte} {s : State} (h : s.holds 4) (hr : r.toNat < 32) :
    formRI r s = .ok { r := ⟨r.toNat, hr⟩, pc := s.pc.toNat + 4 } := by
  simp only [State.holds] at h
  have h1 : fetchReg r s s.afterOpcode = .ok { r := ⟨r.toNat, hr⟩, pc := s.pc.toNat + 2 } :=
    fetchReg_ok (by simp only [State.afterOpcode]; omega) hr
  have h2 : fetch8 s (s.pc.toNat + 2) = .ok (s.pc.toNat + 3) := fetch8_ok (by omega)
  have h3 : fetch8 s (s.pc.toNat + 3) = .ok (s.pc.toNat + 4) := fetch8_ok (by omega)
  simp [formRI, h1, h2, h3, bind, Except.bind, pure, Except.pure]

theorem formRRR_ok {a b d : Byte} {s : State} (h : s.holds 4) (ha : a.toNat < 32) (hb : b.toNat < 32)
    (hd : d.toNat < 32) :
    formRRR a b d s = .ok { a := ⟨a.toNat, ha⟩, b := ⟨b.toNat, hb⟩, d := ⟨d.toNat, hd⟩, pc := s.pc.toNat + 4 } := by
  simp only [State.holds] at h
  have h1 : fetchReg a s s.afterOpcode = .ok { r := ⟨a.toNat, ha⟩, pc := s.pc.toNat + 2 } :=
    fetchReg_ok (by simp only [State.afterOpcode]; omega) ha
  have h2 : fetchReg b s (s.pc.toNat + 2) = .ok { r := ⟨b.toNat, hb⟩, pc := s.pc.toNat + 3 } := fetchReg_ok (by omega) hb
  have h3 : fetchReg d s (s.pc.toNat + 3) = .ok { r := ⟨d.toNat, hd⟩, pc := s.pc.toNat + 4 } := fetchReg_ok (by omega) hd
  simp [formRRR, h1, h2, h3, bind, Except.bind, pure, Except.pure]

theorem formRRP_ok {a b : Byte} {s : State} (h : s.holds 4) (ha : a.toNat < 32) (hb : b.toNat < 32) :
    formRRP a b s = .ok { a := ⟨a.toNat, ha⟩, b := ⟨b.toNat, hb⟩, pc := s.pc.toNat + 4 } := by
  simp only [State.holds] at h
  have h1 : fetchReg a s s.afterOpcode = .ok { r := ⟨a.toNat, ha⟩, pc := s.pc.toNat + 2 } :=
    fetchReg_ok (by simp only [State.afterOpcode]; omega) ha
  have h2 : fetchReg b s (s.pc.toNat + 2) = .ok { r := ⟨b.toNat, hb⟩, pc := s.pc.toNat + 3 } := fetchReg_ok (by omega) hb
  have h3 : fetch8 s (s.pc.toNat + 3) = .ok (s.pc.toNat + 4) := fetch8_ok (by omega)
  simp [formRRP, h1, h2, h3, bind, Except.bind, pure, Except.pure]

/-! ## Where an operand form raises, and with what (R173, R176, R179). -/

/-- A raise of the operand fetch of an instruction that has these register bytes and this length: the byte at place `k`
(from 1) is missing, or is an index of 32 or more; the bytes before it are there, and name registers where they are
indices. -/
structure FetchRaise (regs : List Byte) (n : Nat) (s : State) (e : Raised) (k : Nat) : Prop where
  place  : 1 ≤ k ∧ k < n
  before : ∀ j, 1 ≤ j → j < k → s.pc.toNat + j < s.len ∧ ∀ b, regs[j - 1]? = some b → b.toNat < 32
  here   : (s.len ≤ s.pc.toNat + k ∧ e = { cause := .fetchPastEnd, info := 0, pc := s.pc.toNat + k }) ∨
    (s.pc.toNat + k < s.len ∧ ∃ b, regs[k - 1]? = some b ∧ 32 ≤ b.toNat ∧
      e = { cause := .regIndexOutOfRange, info := b, pc := s.pc.toNat + k + 1 })

/-- All that format `R` can answer. -/
theorem formR_cases (r : Byte) (s : State) :
    (∃ e k, FetchRaise [r] 2 s e k ∧ formR r s = .error e) ∨
    (s.holds 2 ∧ ∃ hr : r.toNat < 32, formR r s = .ok { r := ⟨r.toNat, hr⟩, pc := s.pc.toNat + 2 }) := by
  rcases fetchReg_cases r s s.afterOpcode with ⟨h, e⟩ | ⟨h, hb, e⟩ | ⟨h, hb, e⟩
  · exact .inl ⟨_, 1, ⟨by omega, by omega, .inl ⟨h, rfl⟩⟩, e⟩
  · exact .inl ⟨_, 1, ⟨by omega, by omega, .inr ⟨h, r, rfl, hb, rfl⟩⟩, e⟩
  · exact .inr ⟨h, hb, e⟩

/-- All that format `RI` can answer. -/
theorem formRI_cases (r : Byte) (s : State) :
    (∃ e k, FetchRaise [r] 4 s e k ∧ formRI r s = .error e) ∨
    (s.holds 4 ∧ ∃ hr : r.toNat < 32, formRI r s = .ok { r := ⟨r.toNat, hr⟩, pc := s.pc.toNat + 4 }) := by
  have hpc : s.afterOpcode = s.pc.toNat + 1 := rfl
  rcases fetchReg_cases r s s.afterOpcode with ⟨h, e⟩ | ⟨h, hb, e⟩ | ⟨h, hb, e⟩
  · exact .inl ⟨_, 1, ⟨by omega, by omega, .inl ⟨h, rfl⟩⟩, by rw [hpc] at e; simp [formRI, hpc, e, bind, Except.bind]⟩
  · exact .inl ⟨_, 1, ⟨by omega, by omega, .inr ⟨h, r, rfl, hb, rfl⟩⟩, by rw [hpc] at e; simp [formRI, hpc, e, bind, Except.bind]⟩
  · by_cases h4 : s.holds 4
    · exact .inr ⟨h4, hb, formRI_ok h4 hb⟩
    · simp only [State.holds] at h4
      rw [hpc] at e h
      have b1 : ∀ j, 1 ≤ j → j < 2 → s.pc.toNat + j < s.len ∧ ∀ b, [r][j - 1]? = some b → b.toNat < 32 := by
        intro j h1 h2
        have hj : j = 1 := by omega
        subst hj
        exact ⟨h, by rintro b ⟨⟩; exact hb⟩
      by_cases h2 : s.len ≤ s.pc.toNat + 2
      · refine .inl ⟨_, 2, ⟨by omega, b1, .inl ⟨h2, rfl⟩⟩, ?_⟩
        simp [formRI, hpc, e, fetch8_end h2, bind, Except.bind]
      · have h2' : s.pc.toNat + 2 < s.len := by omega
        have h3 : s.len ≤ s.pc.toNat + 3 := by omega
        refine .inl ⟨_, 3, ⟨by omega, ?_, .inl ⟨h3, rfl⟩⟩, ?_⟩
        · intro j h1 hj
          by_cases e2 : j = 2
          · subst e2
            exact ⟨h2', by rintro b ⟨⟩⟩
          · exact b1 j h1 (by omega)
        · simp [formRI, hpc, e, fetch8_ok h2', fetch8_end h3, bind, Except.bind]

/-- Two register bytes, the shared beginning of formats `RRR` and `RRP`: either a raise, or both are taken. -/
theorem twoRegs_cases (a b : Byte) (rest : List Byte) (s : State) :
    (∃ e, (∃ k, FetchRaise (a :: b :: rest) 4 s e k) ∧
      (fetchReg a s s.afterOpcode = .error e ∨
        ∃ ha : a.toNat < 32, fetchReg a s s.afterOpcode = .ok { r := ⟨a.toNat, ha⟩, pc := s.pc.toNat + 2 } ∧
          fetchReg b s (s.pc.toNat + 2) = .error e)) ∨
    (s.holds 3 ∧ ∃ (ha : a.toNat < 32) (hb : b.toNat < 32),
      fetchReg a s s.afterOpcode = .ok { r := ⟨a.toNat, ha⟩, pc := s.pc.toNat + 2 } ∧
      fetchReg b s (s.pc.toNat + 2) = .ok { r := ⟨b.toNat, hb⟩, pc := s.pc.toNat + 3 }) := by
  rcases fetchReg_cases a s s.afterOpcode with ⟨h, e⟩ | ⟨h, hb, e⟩ | ⟨h, ha, e⟩
  · exact .inl ⟨_, ⟨1, by omega, by omega, .inl ⟨h, rfl⟩⟩, .inl e⟩
  · exact .inl ⟨_, ⟨1, by omega, by omega, .inr ⟨h, a, rfl, hb, rfl⟩⟩, .inl e⟩
  · have b1 : ∀ j, 1 ≤ j → j < 2 →
        s.pc.toNat + j < s.len ∧ ∀ c, (a :: b :: rest)[j - 1]? = some c → c.toNat < 32 := by
      intro j h1 h2
      have hj : j = 1 := by omega
      subst hj
      exact ⟨h, by rintro c ⟨⟩; exact ha⟩
    rcases fetchReg_cases b s (s.pc.toNat + 2) with ⟨h', e'⟩ | ⟨h', hb, e'⟩ | ⟨h', hb, e'⟩
    · exact .inl ⟨_, ⟨2, by omega, b1, .inl ⟨h', rfl⟩⟩, .inr ⟨ha, e, e'⟩⟩
    · exact .inl ⟨_, ⟨2, by omega, b1, .inr ⟨h', b, rfl, hb, rfl⟩⟩, .inr ⟨ha, e, e'⟩⟩
    · exact .inr ⟨h', ha, hb, e, e'⟩

theorem twoRegs_before {a b : Byte} {rest : List Byte} {s : State} (h : s.holds 3) (ha : a.toNat < 32)
    (hb : b.toNat < 32) :
    ∀ j, 1 ≤ j → j < 3 → s.pc.toNat + j < s.len ∧ ∀ c, (a :: b :: rest)[j - 1]? = some c → c.toNat < 32 := by
  simp only [State.holds] at h
  intro j h1 h3
  rcases (by omega : j = 1 ∨ j = 2) with rfl | rfl
  · exact ⟨by omega, by rintro c ⟨⟩; exact ha⟩
  · exact ⟨by omega, by rintro c ⟨⟩; exact hb⟩

/-- All that format `RRR` can answer. -/
theorem formRRR_cases (a b d : Byte) (s : State) :
    (∃ e k, FetchRaise [a, b, d] 4 s e k ∧ formRRR a b d s = .error e) ∨
    (s.holds 4 ∧ ∃ (ha : a.toNat < 32) (hb : b.toNat < 32) (hd : d.toNat < 32), formRRR a b d s =
      .ok { a := ⟨a.toNat, ha⟩, b := ⟨b.toNat, hb⟩, d := ⟨d.toNat, hd⟩, pc := s.pc.toNat + 4 }) := by
  rcases twoRegs_cases a b [d] s with ⟨e, ⟨k, hk⟩, h | ⟨ha, h, h'⟩⟩ | ⟨h3, ha, hb, h, h'⟩
  · exact .inl ⟨e, k, hk, by simp [formRRR, h, bind, Except.bind]⟩
  · exact .inl ⟨e, k, hk, by simp [formRRR, h, h', bind, Except.bind]⟩
  · rcases fetchReg_cases d s (s.pc.toNat + 3) with ⟨hl, e⟩ | ⟨hl, hd, e⟩ | ⟨hl, hd, e⟩
    · exact .inl ⟨_, 3, ⟨by omega, twoRegs_before h3 ha hb, .inl ⟨hl, rfl⟩⟩, by
        simp [formRRR, h, h', e, bind, Except.bind]⟩
    · exact .inl ⟨_, 3, ⟨by omega, twoRegs_before h3 ha hb, .inr ⟨hl, d, rfl, hd, rfl⟩⟩, by
        simp [formRRR, h, h', e, bind, Except.bind]⟩
    · exact .inr ⟨hl, ha, hb, hd, by simp [formRRR, h, h', e, bind, Except.bind, pure, Except.pure]⟩

/-- All that format `RRP` can answer. -/
theorem formRRP_cases (a b : Byte) (s : State) :
    (∃ e k, FetchRaise [a, b] 4 s e k ∧ formRRP a b s = .error e) ∨
    (s.holds 4 ∧ ∃ (ha : a.toNat < 32) (hb : b.toNat < 32),
      formRRP a b s = .ok { a := ⟨a.toNat, ha⟩, b := ⟨b.toNat, hb⟩, pc := s.pc.toNat + 4 }) := by
  rcases twoRegs_cases a b [] s with ⟨e, ⟨k, hk⟩, h | ⟨ha, h, h'⟩⟩ | ⟨h3, ha, hb, h, h'⟩
  · exact .inl ⟨e, k, hk, by simp [formRRP, h, bind, Except.bind]⟩
  · exact .inl ⟨e, k, hk, by simp [formRRP, h, h', bind, Except.bind]⟩
  · by_cases hl : s.len ≤ s.pc.toNat + 3
    · exact .inl ⟨_, 3, ⟨by omega, twoRegs_before h3 ha hb, .inl ⟨hl, rfl⟩⟩, by
        simp [formRRP, h, h', fetch8_end hl, bind, Except.bind]⟩
    · have hl' : s.pc.toNat + 3 < s.len := by omega
      exact .inr ⟨hl', ha, hb, by simp [formRRP, h, h', fetch8_ok hl', bind, Except.bind, pure, Except.pure]⟩

/-! ## SetPc and the overflow law. -/

/-- All that `SetPc` can answer (R133). -/
theorem setPcTarget_cases (t : Int) (r : Byte) (pc : Nat) :
    ((t < 0 ∨ (maxPc : Int) < t) ∧ setPcTarget t r pc = .error { cause := .pcOutOfRange, info := r, pc := pc }) ∨
    (0 ≤ t ∧ t ≤ maxPc ∧ setPcTarget t r pc = .ok t.toNat) := by
  by_cases h : t < 0 ∨ (maxPc : Int) < t
  · exact .inl ⟨h, by simp [setPcTarget, h]⟩
  · exact .inr ⟨by omega, by omega, by simp [setPcTarget, h]⟩

/-- The range of a signed 32-bit value (R123). -/
theorem fits32_iff (n : Int) : fits32 n = true ↔ -2147483648 ≤ n ∧ n ≤ 2147483647 := by
  simp [fits32]

/-- All that the overflow law can answer (R123). -/
theorem wrap_cases (p : OverflowPolicy) (n : Int) (d : Byte) (pc : Nat) :
    ((p = .wrap ∨ fits32 n = true) ∧ wrap p n d pc = .ok (BitVec.ofInt 32 n)) ∨
    (p = .fault ∧ fits32 n = false ∧ wrap p n d pc = .error { cause := .arithOverflow, info := d, pc := pc }) := by
  cases h : fits32 n
  · cases p
    · exact .inl ⟨.inl rfl, by simp [wrap, h]⟩
    · exact .inr ⟨rfl, rfl, by simp [wrap, h]⟩
  · exact .inl ⟨.inr rfl, by simp [wrap, h]⟩

/-- `perform` answers a next state always: the result, or the state with the fault taken. -/
theorem perform_cases (o : Byte) (s : State) (x : Exec State) :
    (∃ t, x = .ok t ∧ perform o s x = .next t) ∨ (∃ e, x = .error e ∧ perform o s x = .next (takeFault o e s)) := by
  cases x with
  | ok t => exact .inl ⟨t, rfl, rfl⟩
  | error e => exact .inr ⟨e, rfl, rfl⟩

end Sys2Proof.Machine
end

