-- ==== Sys2Proof/Laws/Meanings.lean ====
section
/-! SUPPORT. What each shared pseudocode can do, said once: it raises in fetching its operands, raises after them, or
answers this next state. Proofs about `exec` cite these and do not unfold the meanings. -/

namespace Sys2Proof.Machine

/-- The pseudocode of `Load` (R110). -/
theorem load_cases (r : Byte) (imm : Imm) (s : State) :
    (∃ e k, FetchRaise [r] 4 s e k ∧ execLoad r imm s = .next (takeFault (s.opbyte .load) e s)) ∨
    (s.holds 4 ∧ ∃ hr : r.toNat < 32, execLoad r imm s =
      .next ((s.setReg ⟨r.toNat, hr⟩ (imm.setWidth 32)).setPc (s.pc.toNat + 4))) := by
  rcases formRI_cases r s with ⟨e, k, hk, h⟩ | ⟨h4, hr, h⟩
  · exact .inl ⟨e, k, hk, by simp [execLoad, h, perform, bind, Except.bind]⟩
  · exact .inr ⟨h4, hr, by simp [execLoad, h, perform, bind, Except.bind, pure, Except.pure]⟩

/-- The shared shape of `Add`, `Sub`, `Mul` (R119, R123). -/
theorem arith_cases (f : Int → Int → Int) (a b d : Byte) (s : State) :
    (∃ e k, FetchRaise [a, b, d] 4 s e k ∧ arith f a b d s = .error e) ∨
    (s.holds 4 ∧ ∃ (ha : a.toNat < 32) (hb : b.toNat < 32) (hd : d.toNat < 32),
      (s.params.overflow = .fault ∧ fits32 (f (s.readInt ⟨a.toNat, ha⟩) (s.readInt ⟨b.toNat, hb⟩)) = false ∧
        arith f a b d s = .error { cause := .arithOverflow, info := d, pc := s.pc.toNat + 4 }) ∨
      ((s.params.overflow = .wrap ∨ fits32 (f (s.readInt ⟨a.toNat, ha⟩) (s.readInt ⟨b.toNat, hb⟩)) = true) ∧
        arith f a b d s = .ok ((s.setReg ⟨d.toNat, hd⟩
          (BitVec.ofInt 32 (f (s.readInt ⟨a.toNat, ha⟩) (s.readInt ⟨b.toNat, hb⟩)))).setPc (s.pc.toNat + 4)))) := by
  rcases formRRR_cases a b d s with ⟨e, k, hk, h⟩ | ⟨h4, ha, hb, hd, h⟩
  · exact .inl ⟨e, k, hk, by simp [arith, h, bind, Except.bind]⟩
  · refine .inr ⟨h4, ha, hb, hd, ?_⟩
    rcases wrap_cases s.params.overflow (f (s.readInt ⟨a.toNat, ha⟩) (s.readInt ⟨b.toNat, hb⟩)) d (s.pc.toNat + 4)
      with ⟨hp, hw⟩ | ⟨hp, hf, hw⟩
    · exact .inr ⟨hp, by simp [arith, h, hw, bind, Except.bind, pure, Except.pure]⟩
    · exact .inl ⟨hp, hf, by simp [arith, h, hw, bind, Except.bind]⟩

/-- The pseudocode of `Div` (R124). -/
theorem divide_cases (a b d : Byte) (s : State) :
    (∃ e k, FetchRaise [a, b, d] 4 s e k ∧ divide a b d s = .error e) ∨
    (s.holds 4 ∧ ∃ (ha : a.toNat < 32) (hb : b.toNat < 32) (hd : d.toNat < 32),
      (s.readInt ⟨b.toNat, hb⟩ = 0 ∧
        divide a b d s = .error { cause := .divideByZero, info := b, pc := s.pc.toNat + 4 }) ∨
      (s.readInt ⟨b.toNat, hb⟩ ≠ 0 ∧ s.params.overflow = .fault ∧
        fits32 (truncDiv (s.readInt ⟨a.toNat, ha⟩) (s.readInt ⟨b.toNat, hb⟩)) = false ∧
        divide a b d s = .error { cause := .arithOverflow, info := d, pc := s.pc.toNat + 4 }) ∨
      (s.readInt ⟨b.toNat, hb⟩ ≠ 0 ∧
        (s.params.overflow = .wrap ∨ fits32 (truncDiv (s.readInt ⟨a.toNat, ha⟩) (s.readInt ⟨b.toNat, hb⟩)) = true) ∧
        divide a b d s = .ok (((s.setReg ⟨d.toNat, hd⟩
          (BitVec.ofInt 32 (truncDiv (s.readInt ⟨a.toNat, ha⟩) (s.readInt ⟨b.toNat, hb⟩)))).setRem
          (BitVec.ofInt 32 (truncRem (s.readInt ⟨a.toNat, ha⟩) (s.readInt ⟨b.toNat, hb⟩)))).setPc (s.pc.toNat + 4)))) := by
  rcases formRRR_cases a b d s with ⟨e, k, hk, h⟩ | ⟨h4, ha, hb, hd, h⟩
  · exact .inl ⟨e, k, hk, by simp [divide, h, bind, Except.bind]⟩
  · refine .inr ⟨h4, ha, hb, hd, ?_⟩
    by_cases hz : s.readInt ⟨b.toNat, hb⟩ = 0
    · exact .inl ⟨hz, by simp [divide, h, hz, bind, Except.bind]⟩
    · rcases wrap_cases s.params.overflow (truncDiv (s.readInt ⟨a.toNat, ha⟩) (s.readInt ⟨b.toNat, hb⟩)) d
        (s.pc.toNat + 4) with ⟨hp, hw⟩ | ⟨hp, hf, hw⟩
      · exact .inr (.inr ⟨hz, hp, by simp [divide, h, hz, hw, bind, Except.bind, pure, Except.pure]⟩)
      · exact .inr (.inl ⟨hz, hp, hf, by simp [divide, h, hz, hw, bind, Except.bind]⟩)

/-- The shared shape of the comparisons (R139). -/
theorem compare_cases (rel : Int → Int → Bool) (a b : Byte) (s : State) :
    (∃ e k, FetchRaise [a, b] 4 s e k ∧ compareRegs rel a b s = .error e) ∨
    (s.holds 4 ∧ ∃ (ha : a.toNat < 32) (hb : b.toNat < 32), compareRegs rel a b s =
      .ok ((s.setCmp (rel (s.readInt ⟨a.toNat, ha⟩) (s.readInt ⟨b.toNat, hb⟩))).setPc (s.pc.toNat + 4))) := by
  rcases formRRP_cases a b s with ⟨e, k, hk, h⟩ | ⟨h4, ha, hb, h⟩
  · exact .inl ⟨e, k, hk, by simp [compareRegs, h, bind, Except.bind]⟩
  · exact .inr ⟨h4, ha, hb, by simp [compareRegs, h, bind, Except.bind, pure, Except.pure]⟩

/-- An absolute jump (R130, R133). -/
theorem jumpTo_cases (target : Nat → Int → Int) (r : Byte) (s : State) :
    (∃ e k, FetchRaise [r] 2 s e k ∧ jumpTo target r s = .error e) ∨
    (s.holds 2 ∧ ∃ hr : r.toNat < 32, ∃ t, t = target (s.pc.toNat + 2) (s.readInt ⟨r.toNat, hr⟩) ∧
      (((t < 0 ∨ (maxPc : Int) < t) ∧
        jumpTo target r s = .error { cause := .pcOutOfRange, info := r, pc := s.pc.toNat + 2 }) ∨
      (0 ≤ t ∧ t ≤ maxPc ∧ jumpTo target r s = .ok (s.setPc t.toNat)))) := by
  rcases formR_cases r s with ⟨e, k, hk, h⟩ | ⟨h2, hr, h⟩
  · exact .inl ⟨e, k, hk, by simp [jumpTo, h, bind, Except.bind]⟩
  · refine .inr ⟨h2, hr, _, rfl, ?_⟩
    rcases setPcTarget_cases (target (s.pc.toNat + 2) (s.readInt ⟨r.toNat, hr⟩)) r (s.pc.toNat + 2)
      with ⟨ht, hp⟩ | ⟨h0, h1, hp⟩
    · exact .inl ⟨ht, by simp [jumpTo, h, hp, bind, Except.bind]⟩
    · exact .inr ⟨h0, h1, by simp [jumpTo, h, hp, bind, Except.bind, pure, Except.pure]⟩

/-- A relative jump (R131, R132, R133). -/
theorem jumpBy_cases (target : Nat → Int → Int) (r : Byte) (s : State) :
    (∃ e k, FetchRaise [r] 2 s e k ∧ jumpBy target r s = .error e) ∨
    (s.holds 2 ∧ ∃ hr : r.toNat < 32, ∃ t, t = target (s.pc.toNat + 2) (s.readInt ⟨r.toNat, hr⟩) ∧
      (((s.readInt ⟨r.toNat, hr⟩ < 0 ∨ t < 0 ∨ (maxPc : Int) < t) ∧
        jumpBy target r s = .error { cause := .pcOutOfRange, info := r, pc := s.pc.toNat + 2 }) ∨
      (0 ≤ s.readInt ⟨r.toNat, hr⟩ ∧ 0 ≤ t ∧ t ≤ maxPc ∧ jumpBy target r s = .ok (s.setPc t.toNat)))) := by
  rcases formR_cases r s with ⟨e, k, hk, h⟩ | ⟨h2, hr, h⟩
  · exact .inl ⟨e, k, hk, by simp [jumpBy, h, bind, Except.bind]⟩
  · refine .inr ⟨h2, hr, _, rfl, ?_⟩
    by_cases hn : s.readInt ⟨r.toNat, hr⟩ < 0
    · exact .inl ⟨.inl hn, by simp [jumpBy, h, hn, bind, Except.bind]⟩
    · rcases setPcTarget_cases (target (s.pc.toNat + 2) (s.readInt ⟨r.toNat, hr⟩)) r (s.pc.toNat + 2)
        with ⟨ht, hp⟩ | ⟨h0, h1, hp⟩
      · exact .inl ⟨.inr ht, by simp [jumpBy, h, hn, hp, bind, Except.bind]⟩
      · exact .inr ⟨by omega, h0, h1, by simp [jumpBy, h, hn, hp, bind, Except.bind, pure, Except.pure]⟩

/-- A conditional absolute jump (R150, R151). -/
theorem jumpIf_cases (taken : Bool) (r : Byte) (s : State) :
    (∃ e k, FetchRaise [r] 2 s e k ∧ jumpIf taken r s = .error e) ∨
    (s.holds 2 ∧ ∃ hr : r.toNat < 32,
      (taken = false ∧ jumpIf taken r s = .ok (s.setPc (s.pc.toNat + 2))) ∨
      (taken = true ∧ s.readInt ⟨r.toNat, hr⟩ < 0 ∧
        jumpIf taken r s = .error { cause := .pcOutOfRange, info := r, pc := s.pc.toNat + 2 }) ∨
      (taken = true ∧ 0 ≤ s.readInt ⟨r.toNat, hr⟩ ∧
        jumpIf taken r s = .ok (s.setPc (s.readInt ⟨r.toNat, hr⟩).toNat))) := by
  rcases formR_cases r s with ⟨e, k, hk, h⟩ | ⟨h2, hr, h⟩
  · exact .inl ⟨e, k, hk, by simp [jumpIf, h, bind, Except.bind]⟩
  · refine .inr ⟨h2, hr, ?_⟩
    cases taken with
    | false => exact .inl ⟨rfl, by simp [jumpIf, h, bind, Except.bind, pure, Except.pure]⟩
    | true =>
      have hmax : s.readInt ⟨r.toNat, hr⟩ < 2147483648 := by
        have := BitVec.toInt_lt (x := s.readReg ⟨r.toNat, hr⟩)
        simpa [State.readInt] using this
      rcases setPcTarget_cases (s.readInt ⟨r.toNat, hr⟩) r (s.pc.toNat + 2) with ⟨ht, hp⟩ | ⟨h0, _, hp⟩
      · refine .inr (.inl ⟨rfl, ?_, by simp [jumpIf, h, hp, bind, Except.bind]⟩)
        simp only [maxPc] at ht
        omega
      · exact .inr (.inr ⟨rfl, h0, by simp [jumpIf, h, hp, bind, Except.bind, pure, Except.pure]⟩)

end Sys2Proof.Machine
end

