-- ==== Sys2Proof/Laws/PerInstr.lean ====
section
/-! SUPPORT. A law of every instruction as syntax: the encoder emits exactly `Length(op)` bytes (R79, R105), and the first
of them is the opcode byte `B0` (R10). One lemma per constructor. -/

namespace Sys2Proof.Laws

/-- The encoding has the length of R79 and starts with the opcode byte. -/
def EncodedLength.Statement (i : Instr) : Prop :=
  ∀ m : List Opcode, (encode m i).length = i.opId.length ∧ (encode m i).head? = some (i.b0 m)

theorem EncodedLength.load (r : Byte) (imm : Imm) : EncodedLength.Statement (.load r imm) := fun _ => ⟨rfl, rfl⟩
theorem EncodedLength.add (a b d : Byte) : EncodedLength.Statement (.add a b d) := fun _ => ⟨rfl, rfl⟩
theorem EncodedLength.sub (a b d : Byte) : EncodedLength.Statement (.sub a b d) := fun _ => ⟨rfl, rfl⟩
theorem EncodedLength.mul (a b d : Byte) : EncodedLength.Statement (.mul a b d) := fun _ => ⟨rfl, rfl⟩
theorem EncodedLength.div (a b d : Byte) : EncodedLength.Statement (.div a b d) := fun _ => ⟨rfl, rfl⟩
theorem EncodedLength.jump (r : Byte) : EncodedLength.Statement (.jump r) := fun _ => ⟨rfl, rfl⟩
theorem EncodedLength.jumpF (r : Byte) : EncodedLength.Statement (.jumpF r) := fun _ => ⟨rfl, rfl⟩
theorem EncodedLength.jumpB (r : Byte) : EncodedLength.Statement (.jumpB r) := fun _ => ⟨rfl, rfl⟩
theorem EncodedLength.eq (a b pad : Byte) : EncodedLength.Statement (.eq a b pad) := fun _ => ⟨rfl, rfl⟩
theorem EncodedLength.notEq (a b pad : Byte) : EncodedLength.Statement (.notEq a b pad) := fun _ => ⟨rfl, rfl⟩
theorem EncodedLength.greater (a b pad : Byte) : EncodedLength.Statement (.greater a b pad) := fun _ => ⟨rfl, rfl⟩
theorem EncodedLength.less (a b pad : Byte) : EncodedLength.Statement (.less a b pad) := fun _ => ⟨rfl, rfl⟩
theorem EncodedLength.greaterEq (a b pad : Byte) : EncodedLength.Statement (.greaterEq a b pad) := fun _ => ⟨rfl, rfl⟩
theorem EncodedLength.lessEq (a b pad : Byte) : EncodedLength.Statement (.lessEq a b pad) := fun _ => ⟨rfl, rfl⟩
theorem EncodedLength.jumpEq (r : Byte) : EncodedLength.Statement (.jumpEq r) := fun _ => ⟨rfl, rfl⟩
theorem EncodedLength.jumpNeq (r : Byte) : EncodedLength.Statement (.jumpNeq r) := fun _ => ⟨rfl, rfl⟩
theorem EncodedLength.halt : EncodedLength.Statement .halt := fun _ => ⟨rfl, rfl⟩
theorem EncodedLength.bad (o : Byte) : EncodedLength.Statement (.bad o) := fun _ => ⟨rfl, rfl⟩

end Sys2Proof.Laws
end

