-- ==== Sys2Proof/Tests/Slice0.lean ====
section
/-! SUPPORT. The model's own tests. Expected results come from the vectors of spec/95_test_vectors.md (named by their ids),
from the worked examples of the rules, or by hand from the rules named. The `witness_` theorems show, for each statement that
has hypotheses, concrete values that meet all of them together, at the boundaries of each clause. -/

namespace Sys2Proof.Tests

open Sys2Proof Sys2Proof.Machine

/-! ## Helpers. -/

/-- The reset state with these bytes in the buffer. -/
def buffer (bs : List Byte) : State := { State.reset with code := Memory.ofBytes bs }

/-- Give registers values. -/
def ints (l : List (RegIdx × Int)) (s : State) : State := l.foldl (fun s p => s.setReg p.1 (BitVec.ofInt 32 p.2)) s

/-- A state with the bytes of a three-register instruction or a comparison, and the two source registers 0 and 1. -/
def two (op : Byte) (a b : Int) : State := ints [(0, a), (1, b)] (buffer [op, 0, 1, 2])

/-- The policies other than the defaults. -/
def faulting (s : State) : State := { s with params := { s.params with overflow := .fault } }

def mirroring (s : State) : State := { s with params := { s.params with jumpNeq := .mirror } }

/-- What is seen of the state after one step. -/
def sees {α : Type} (s : State) (f : State → α) : Option α :=
  match step s with
  | .next t => some (f t)
  | .fault _ => none
  | .refused _ => none

/-- What is seen of the state after one instruction. -/
def runs {α : Type} (i : Instr) (s : State) (f : State → α) : Option α :=
  match exec i s with
  | .next t => some (f t)
  | .fault _ => none
  | .refused _ => none

theorem sees_next {α : Type} {s : State} {f : State → α} {v : α} (h : sees s f = some v) :
    ∃ t, step s = .next t ∧ f t = v := by
  unfold sees at h
  split at h
  · next t ht => exact ⟨t, ht, Option.some.inj h⟩
  · cases h
  · cases h

theorem runs_next {α : Type} {i : Instr} {s : State} {f : State → α} {v : α} (h : runs i s f = some v) :
    ∃ t, exec i s = .next t ∧ f t = v := by
  unfold runs at h
  split at h
  · next t ht => exact ⟨t, ht, Option.some.inj h⟩
  · cases h
  · cases h

/-- A recorded fault as the vectors write it: cause code, ipc, opbyte, info. -/
def recorded (t : State) : Option (Nat × Addr × Byte × Byte) :=
  t.fault.map fun r => (r.cause.code, r.ipc, r.opbyte, r.info)

/-- A legal `OPMAP` that is not the default one. -/
def otherMap : List Opcode := .load :: (Opcode.mapped.drop 1).reverse

/-! ## Well-formedness: each check with a term it refuses. -/

theorem test_wf_bad_refuses_mapped_byte : (Instr.bad 5).wellFormed = false := by decide
theorem test_wf_bad_refuses_halt_byte : (Instr.bad 254).wellFormed = false := by decide
theorem test_wf_bad_accepts : (Instr.bad 16).wellFormed = true ∧ (Instr.bad 255).wellFormed = true := by decide
theorem test_regs_named : (Instr.add 0 32 1).regsNamed = false ∧ (Instr.eq 31 0 99).regsNamed = true := by decide
theorem test_opmap_refuses_repeat : ¬ OpMapLegal (.load :: .load :: Opcode.mapped.drop 2) := by decide
theorem test_opmap_refuses_load_elsewhere : ¬ OpMapLegal Opcode.mapped.reverse := by decide
theorem test_params_refuse_no_room : ¬ { defaultParams with codeCap := 0 }.Legal := by decide
theorem test_params_refuse_too_much : ¬ { defaultParams with codeCap := 4294967296 }.Legal := by decide
theorem test_memory_wf : Memory.wf [(0, 7), (1, 0)] ∧ ¬ Memory.wf [(0, 7), (2, 0)] ∧ ¬ Memory.wf [(1, 7), (0, 0)] := by decide

/-! ## Decoding: words written out from R71 to R76, and R76's default map. -/

theorem test_decode_load : decode defaultOpMap [0b00000000, 0b00011111, 0b10000000, 0b00000001] = .ok (.load 31 0x8001, []) := by decide
theorem test_decode_add : decode defaultOpMap [0b00000001, 0b00000000, 0b00000001, 0b00000010] = .ok (.add 0 1 2, []) := by decide
theorem test_decode_sub : decode defaultOpMap [0b00000010, 0b00000001, 0b00000000, 0b00000010] = .ok (.sub 1 0 2, []) := by decide
theorem test_decode_mul : decode defaultOpMap [0b00000011, 0b11111111, 0b00000001, 0b00100000] = .ok (.mul 255 1 32, []) := by decide
theorem test_decode_div : decode defaultOpMap [0b00000100, 0b00000010, 0b00000011, 0b00000100] = .ok (.div 2 3 4, []) := by decide
theorem test_decode_jump : decode defaultOpMap [0b00000101, 0b00000001, 0b11111110] = .ok (.jump 1, [0xFE]) := by decide
theorem test_decode_jumpF : decode defaultOpMap [0b00000110, 0b00000011] = .ok (.jumpF 3, []) := by decide
theorem test_decode_jumpB : decode defaultOpMap [0b00000111, 0b00000101] = .ok (.jumpB 5, []) := by decide
theorem test_decode_eq : decode defaultOpMap [0b00001000, 0b00000000, 0b00000011, 0b00000000] = .ok (.eq 0 3 0, []) := by decide
theorem test_decode_notEq : decode defaultOpMap [0b00001001, 0b00000000, 0b00000001, 0b10101011] = .ok (.notEq 0 1 0xAB, []) := by decide
theorem test_decode_greater : decode defaultOpMap [0b00001010, 0b00000000, 0b00000001, 0b10101011] = .ok (.greater 0 1 0xAB, []) := by decide
theorem test_decode_less : decode defaultOpMap [0b00001011, 0b00000000, 0b00000001, 0b10101011] = .ok (.less 0 1 0xAB, []) := by decide
theorem test_decode_greaterEq : decode defaultOpMap [0b00001100, 0b00000000, 0b00000001, 0b10101011] = .ok (.greaterEq 0 1 0xAB, []) := by decide
theorem test_decode_lessEq : decode defaultOpMap [0b00001101, 0b00000000, 0b00000001, 0b10101011] = .ok (.lessEq 0 1 0xAB, []) := by decide
theorem test_decode_jumpEq : decode defaultOpMap [0b00001110, 0b00000100] = .ok (.jumpEq 4, []) := by decide
theorem test_decode_jumpNeq : decode defaultOpMap [0b00001111, 0b00000000] = .ok (.jumpNeq 0, []) := by decide
theorem test_decode_halt : decode defaultOpMap [0b11111110] = .ok (.halt, []) := by decide
theorem test_decode_bad : decode defaultOpMap [0b11001000] = .ok (.bad 200, []) := by decide
theorem test_decode_truncated : decode defaultOpMap [0x08, 0x00, 0x01] = .error (.truncated (.assigned .eq) [0x08, 0x00, 0x01]) := by decide

/-- The words of the opcode table have `B0` as their most significant byte (spec/INDEX.md). -/
theorem test_table_words :
    decodeTableWord 32 0x01000000 = some (.add 0 0 0) ∧ decodeTableWord 32 0x000001F4 = some (.load 0 500) ∧
    decodeTableWord 16 0x0E04 = some (.jumpEq 4) ∧ decodeTableWord 8 0xFE = some .halt ∧
    decodeTableWord 8 0x10 = some (.bad 16) := by decide

/-- The placed word is the very next instruction, as the first after reset and at another offset. -/
theorem test_place_word :
    sees (State.reset.withFetchWord 32 0x000001F4) (fun t => (t.readInt 0, t.pc)) = some (500, 4) ∧
    sees ({ State.reset with pc := 3, status := .halted }.withFetchWord 8 0xFE) (fun t => (t.pc, t.status)) = some (4, .halted) := by
  decide

/-! ## One step of each instruction. -/

/-- L1. -/
theorem test_load_zero_extends : sees (ints [(31, -5)] (buffer [0x00, 0x1F, 0xFF, 0xFF]))
    (fun t => (t.readInt 31, t.pc, t.status)) = some (65535, 4, .running) := by decide
/-- L6. -/
theorem test_load_truncated : sees (buffer [0x00, 0x00, 0x01])
    (fun t => (t.pc, recorded t)) = some (3, some (4, 0, 0, 0)) := by decide
/-- A2. -/
theorem test_add_wraps : sees (two 0x01 2147483647 1) (fun t => (t.readInt 2, t.pc)) = some (-2147483648, 4) := by decide
/-- A4. -/
theorem test_add_same_register : sees (ints [(3, 21)] (buffer [0x01, 0x03, 0x03, 0x03])) (fun t => t.readInt 3) = some 42 := by decide
/-- A8. -/
theorem test_sub_wraps : sees (two 0x02 (-2147483648) 1) (fun t => (t.readInt 2, t.pc)) = some (2147483647, 4) := by decide
/-- The worked example of R121. -/
theorem test_sub_order : sees (ints [(0, 7)] (buffer [0x02, 0x01, 0x00, 0x02])) (fun t => t.readInt 2) = some (-7) := by decide
/-- A13. -/
theorem test_mul_wraps : sees (two 0x03 46341 46341) (fun t => (t.readInt 2, t.pc)) = some (-2147479015, 4) := by decide
/-- A10. -/
theorem test_mul_signed : sees (two 0x03 (-3) 7) (fun t => t.readInt 2) = some (-21) := by decide
/-- V2 and V3: the signs of quotient and remainder. -/
theorem test_div_signs :
    sees ((two 0x04 (-7) 2).setRem 0x1234) (fun t => (t.readInt 2, t.rem, t.pc)) = some (-3, 0xFFFFFFFF, 4) ∧
    sees ((two 0x04 7 (-2)).setRem 0x1234) (fun t => (t.readInt 2, t.rem, t.pc)) = some (-3, 1, 4) := by decide
/-- V16. -/
theorem test_div_into_source : sees (ints [(0, 17), (1, 5)] (buffer [0x04, 0x00, 0x01, 0x00]))
    (fun t => (t.readInt 0, t.rem)) = some (3, 2) := by decide
/-- J1. -/
theorem test_jump : sees { ints [(1, 2)] (buffer [0, 0, 0, 0, 0, 0, 0, 0, 0x05, 0x01]) with pc := 8 } (fun t => t.pc) = some 2 := by decide
/-- J4. -/
theorem test_jump_negative : sees (ints [(0, -1)] (buffer [0x05, 0x00]))
    (fun t => (t.pc, recorded t)) = some (2, some (5, 0, 5, 0)) := by decide
/-- J6. -/
theorem test_jumpF : sees (ints [(0, 5)] (buffer [0x06, 0x00])) (fun t => t.pc) = some 7 := by decide
/-- J8. -/
theorem test_jumpF_far : sees { ints [(0, 2147483647)] (buffer [0, 0, 0, 0, 0, 0, 0, 0, 0, 0, 0x06, 0x00]) with pc := 10 }
    (fun t => (t.pc, t.status)) = some (2147483659, .running) := by decide
/-- J10. -/
theorem test_jumpB_to_start : sees { ints [(0, 6)] (buffer [0, 0, 0, 0, 0x07, 0x00]) with pc := 4 } (fun t => t.pc) = some 0 := by decide
/-- J11. -/
theorem test_jumpB_below : sees { ints [(0, 7)] (buffer [0, 0, 0, 0, 0x07, 0x00]) with pc := 4 }
    (fun t => (t.pc, recorded t)) = some (6, some (5, 4, 7, 0)) := by decide
/-- The first two rows of the table of 2.4, here and in the next five theorems; `cmp` starts as the opposite. -/
theorem test_eq : sees ((two 0x08 (-1) 1).setCmp true) (fun t => (t.cmp, t.pc)) = some (false, 4) ∧
    sees (two 0x08 10 10) (fun t => (t.cmp, t.pc)) = some (true, 4) := by decide
theorem test_notEq : sees (two 0x09 (-1) 1) (fun t => (t.cmp, t.pc)) = some (true, 4) ∧
    sees ((two 0x09 10 10).setCmp true) (fun t => (t.cmp, t.pc)) = some (false, 4) := by decide
theorem test_greater : sees ((two 0x0A (-1) 1).setCmp true) (fun t => (t.cmp, t.pc)) = some (false, 4) ∧
    sees ((two 0x0A 10 10).setCmp true) (fun t => (t.cmp, t.pc)) = some (false, 4) := by decide
theorem test_less : sees (two 0x0B (-1) 1) (fun t => (t.cmp, t.pc)) = some (true, 4) ∧
    sees ((two 0x0B 10 10).setCmp true) (fun t => (t.cmp, t.pc)) = some (false, 4) := by decide
theorem test_greaterEq : sees ((two 0x0C (-1) 1).setCmp true) (fun t => (t.cmp, t.pc)) = some (false, 4) ∧
    sees (two 0x0C 10 10) (fun t => (t.cmp, t.pc)) = some (true, 4) := by decide
theorem test_lessEq : sees (two 0x0D (-1) 1) (fun t => (t.cmp, t.pc)) = some (true, 4) ∧
    sees (two 0x0D 10 10) (fun t => (t.cmp, t.pc)) = some (true, 4) := by decide
/-- The fourth row of the table of 2.4: the ends of the range, for the two orderings of one direction. -/
theorem test_greater_ends : sees (two 0x0A 2147483647 (-2147483648)) (fun t => t.cmp) = some true := by decide
/-- Q1: the pad byte is no register index. -/
theorem test_eq_pad : sees (buffer [0x08, 0x00, 0x00, 0xFF]) (fun t => (t.cmp, t.pc)) = some (true, 4) := by decide
/-- E1 and E3. -/
theorem test_jumpEq : sees ((ints [(4, 40)] (buffer [0x0E, 0x04])).setCmp true) (fun t => (t.pc, t.cmp)) = some (40, true) ∧
    sees (ints [(4, -5)] (buffer [0x0E, 0x04])) (fun t => (t.pc, t.status)) = some (2, .running) := by decide
/-- E5. -/
theorem test_jumpEq_index_checked : sees (buffer [0x0E, 0x20]) (fun t => (t.pc, recorded t)) = some (2, some (3, 0, 0x0E, 0x20)) := by decide
/-- E6. -/
theorem test_jumpNeq_bad : sees (buffer [0x0F, 0x00]) (fun t => (t.pc, recorded t)) = some (1, some (1, 0, 0x0F, 0x0F)) := by decide
/-- E7 and E8. -/
theorem test_jumpNeq_mirror : sees (mirroring (ints [(4, 40)] (buffer [0x0F, 0x04]))) (fun t => t.pc) = some 40 ∧
    sees (mirroring ((ints [(4, 40)] (buffer [0x0F, 0x04])).setCmp true)) (fun t => t.pc) = some 2 := by decide
/-- S4, H1. -/
theorem test_halt : sees (buffer [0xFE]) (fun t => (t.pc, t.status, t.fault)) = some (1, .halted, none) := by decide
/-- S5, H5. -/
theorem test_bad : sees (buffer [200]) (fun t => (t.pc, recorded t)) = some (1, some (1, 0, 200, 200)) := by decide
theorem test_bad_255 : sees (buffer [255]) (fun t => (t.pc, recorded t)) = some (1, some (1, 0, 255, 255)) := by decide

/-! ## Faults, priority and transactions. -/

/-- A15: the first bad index is reported. -/
theorem test_first_bad_index : sees (buffer [0x01, 0x00, 0x20, 0x21]) (fun t => (t.pc, recorded t)) = some (3, some (3, 0, 1, 0x20)) := by decide
/-- V17: the index fault hides the zero divisor and the missing byte. -/
theorem test_index_before_missing : sees (buffer [0x04, 0x28, 0x01]) (fun t => (t.pc, recorded t)) = some (2, some (3, 0, 4, 0x28)) := by decide
/-- V18: the missing byte hides the zero divisor. -/
theorem test_missing_before_zero : sees (buffer [0x04, 0x00, 0x01]) (fun t => (t.pc, recorded t)) = some (3, some (4, 0, 4, 0)) := by decide
/-- A5. -/
theorem test_overflow_policy : sees (faulting (two 0x01 2147483647 1))
    (fun t => (t.readInt 2, recorded t)) = some (0, some (6, 0, 1, 2)) := by decide
/-- H6: nothing changes. -/
theorem test_end_of_buffer : tick State.reset = .next (State.reset, .endOfBuffer) := by rfl
/-- R38: the capacity. -/
theorem test_add_byte_full :
    (addByte 5 { buffer [1] with params := { defaultParams with codeCap := 1 } }).2 = .full ∧
    (addByte 5 { buffer [1] with params := { defaultParams with codeCap := 2 } }).1.code = [(0, 1), (1, 5)] := by decide

/-! ## The assembler. -/

/-- T1, T2, T4, T6: the bytes. -/
theorem test_asm_bytes :
    Asm.assembleSource defaultParams (Asm.ascii "Load $0 #500") = [0x00, 0x00, 0x01, 0xF4] ∧
    Asm.assembleSource defaultParams (Asm.ascii "load $1F #65535") = [0x00, 0x1F, 0xFF, 0xFF] ∧
    Asm.assembleSource defaultParams (Asm.ascii "Load $0 #70000") = [0x00, 0x00, 0x11, 0x70] ∧
    Asm.assembleSource defaultParams (Asm.ascii "Eq $0 $1") = [0x08, 0x00, 0x01, 0x00] := by decide
/-- T7, T10. -/
theorem test_asm_comment_and_index :
    Asm.assembleSource defaultParams (Asm.ascii "JumpB $5 ; back") = [0x07, 0x05] ∧
    Asm.assembleSource defaultParams (Asm.ascii "Jump $100") = [0x05, 0x00] := by decide
/-- T11, T12, T14: no bytes, one error. -/
theorem test_asm_rejects :
    ((Asm.parseSource (Asm.ascii "lOAD $0 #1")).instrs = [] ∧ (Asm.parseSource (Asm.ascii "lOAD $0 #1")).errors.length = 1) ∧
    Asm.assembleSource defaultParams (Asm.ascii "Load $0 #2147483648") = [] ∧
    Asm.assembleSource defaultParams (Asm.ascii "Load $0 #-1") = [] := by decide
/-- S7, T15: recovery at the line end. -/
theorem test_asm_recovery :
    (Asm.parseSource (Asm.ascii "Add $0 $1\nHalt\n")).errors.length = 1 ∧
    Asm.assembleSource defaultParams (Asm.ascii "Add $0 $1\nHalt\n") = [0xFE] := by decide

/-! ## Witnesses. -/

theorem buffer_inv {bs : List Byte} (h : bs.length ≤ maxPc) : (buffer bs).Inv :=
  ⟨(by decide : defaultParams.Legal), Memory.ofBytes_wf bs,
    show (Memory.ofBytes bs).length ≤ maxPc by simpa [Memory.ofBytes] using h,
    Iff.intro (fun h => nomatch h) (fun h => absurd rfl h)⟩

/-- The end points of the bytes of `bad`, and an immediate and an index at their greatest. -/
theorem witness_DecodeOfEncode : OpMapLegal otherMap ∧ (Instr.bad 16).wellFormed = true ∧ (Instr.bad 253).wellFormed = true ∧
    (Instr.bad 255).wellFormed = true ∧ (Instr.load 255 0xFFFF).wellFormed = true := by decide

theorem witness_EncodeOfDecode : OpMapLegal otherMap ∧ decode otherMap [0x01, 0x20, 0x09] = .ok (.jumpNeq 0x20, [0x09]) ∧
    decode otherMap [0xFF] = .ok (.bad 0xFF, []) := by decide

/-- Each clause at the ends of its range of bytes. -/
theorem witness_DecodeByteIsTotal : OpMapLegal otherMap ∧
    (∀ b ∈ ([0, 15] : List Byte), b.toNat < 16) ∧
    (∀ b ∈ ([16, 253, 255] : List Byte), 16 ≤ b.toNat ∧ b ≠ 254) ∧
    decodeByte otherMap 254 = .assigned .halt ∧ decodeByte otherMap 15 = .assigned .add := by decide

theorem witness_DecodeRejectsOnlyTruncated : decode defaultOpMap [] = .error .noBytes ∧
    decode defaultOpMap [0x04, 1, 2] = .error (.truncated (.assigned .div) [0x04, 1, 2]) ∧
    decode defaultOpMap [0x05] = .error (.truncated (.assigned .jump) [0x05]) := by decide

/-- The last whole instruction of a buffer, after a byte and before another. -/
theorem witness_StepRunsDecodedInstr :
    let s : State := { buffer [0x00, 0x0E, 0x20, 0xFE] with pc := 1 };
    s.Inv ∧ s.status = .running ∧ (Instr.jumpEq 0x20).wellFormed = true ∧
    s.code.bytes.drop s.pc.toNat = encode s.params.opmap (.jumpEq 0x20) ++ [0xFE] :=
  ⟨⟨by decide, by decide, by decide, by decide⟩, by decide, by decide, by decide⟩

/-- All but the first byte missing, and all but the last present; and a lone `JumpNeq` byte under policy `bad`. -/
theorem witness_StepRunsTruncatedInstr :
    ((buffer [0x04]).Inv ∧ (buffer [0x04]).status = .running ∧ (Instr.div 40 1 2).wellFormed = true ∧
      (buffer [0x04]).pc.toNat < (buffer [0x04]).len ∧
      (buffer [0x04]).code.bytes.drop (buffer [0x04]).pc.toNat ++ [40, 1, 2] =
        encode (buffer [0x04]).params.opmap (.div 40 1 2)) ∧
    (let s : State := { buffer [0xFE, 0x08, 0x00, 0x01] with pc := 1 };
      s.Inv ∧ s.status = .running ∧ (Instr.eq 0 1 0xAB).wellFormed = true ∧ s.pc.toNat < s.len ∧
      s.code.bytes.drop s.pc.toNat ++ [0xAB] = encode s.params.opmap (.eq 0 1 0xAB)) ∧
    ((buffer [0x0F]).Inv ∧ (buffer [0x0F]).params.jumpNeq = .bad ∧ (Instr.jumpNeq 0).wellFormed = true ∧
      (buffer [0x0F]).pc.toNat < (buffer [0x0F]).len ∧
      (buffer [0x0F]).code.bytes.drop (buffer [0x0F]).pc.toNat ++ [0] =
        encode (buffer [0x0F]).params.opmap (.jumpNeq 0)) :=
  ⟨⟨buffer_inv (by decide), by decide, by decide, by decide, by decide⟩,
    ⟨⟨by decide, by decide, by decide, by decide⟩, by decide, by decide, by decide, by decide⟩,
    ⟨buffer_inv (by decide), by decide, by decide, by decide, by decide⟩⟩

/-- A truncated comparison is read as two different instructions. -/
theorem witness_MissingBytesNeverMatter : (buffer [0x08, 0x00]).fetchWith 0 = .instr (.eq 0 0 0) ∧
    (buffer [0x08, 0x00]).fetchWith 255 = .instr (.eq 0 255 255) := by decide

/-- Each of the three reasons; the first at `pc = LEN`. -/
theorem witness_IdleTickChangesNothing : (buffer []).len ≤ (buffer []).pc.toNat ∧
    ((buffer [0]).setStatus .halted).status ≠ .running ∧ ((buffer [0]).setStatus .faulted).status ≠ .running := by decide

/-- The first and the last offset of a buffer. -/
theorem witness_EveryOffsetFetchableNoneWritable : (buffer [0, 0, 1]).code.wf ∧ (buffer [0, 0, 1]).status = .running ∧
    (0 : Addr).toNat < (buffer [0, 0, 1]).len ∧ (2 : Addr).toNat + 1 = (buffer [0, 0, 1]).len ∧ (buffer [0, 0, 1]).pc = 0 ∧
    ∃ t, step (buffer [0, 0, 1]) = .next t ∧ t.pc = 3 :=
  ⟨by decide, by decide, by decide, by decide, rfl, sees_next (by decide)⟩

theorem witness_EngineAlwaysAnswers : (buffer [0, 0, 1]).code.wf := by decide

/-- A state that a step changes, and that meets the invariants. -/
theorem witness_StepKeepsInvariants : (buffer [0xC8]).Inv ∧ ∃ t, step (buffer [0xC8]) = .next t ∧ t.status = .faulted :=
  ⟨buffer_inv (by decide), sees_next (by decide)⟩

/-- `CODE_CAP` at both ends of its range, and a map other than the default. -/
theorem witness_ResetMeetsInvariants : { defaultParams with codeCap := 1, opmap := otherMap }.Legal ∧ defaultParams.Legal ∧
    defaultParams.codeCap = maxPc := by decide

theorem witness_TransactionsKeepInvariants : (buffer [0x05, 0x00]).Inv := buffer_inv (by decide)

theorem witness_StepKeepsParametersAndLatches :
    (∃ t, step (buffer [0xFE]) = .next t ∧ t.status = .halted) ∧
    ((buffer [0xFE]).setStatus .halted).status ≠ .running ∧
    (∃ t, step ((buffer [0xFE]).setStatus .halted) = .next t ∧ t.pc = 0) :=
  ⟨sees_next (by decide), by decide, sees_next (by decide)⟩

/-- The buffer holds exactly the four bytes, and the register is the last one. -/
theorem witness_LoadZeroExtendsImmediate : OpMapLegal otherMap ∧ (buffer [0x00, 0x1F, 0xFF, 0xFF]).holds 4 ∧
    (buffer [0x00, 0x1F, 0xFF, 0xFF]).len = 4 ∧ (31 : Byte).toNat < 32 := by decide

/-- Exact sums at both ends of the range under policy `fault`, and one past it under policy `wrap`. -/
theorem witness_AddResult :
    (∀ s ∈ [faulting (two 1 2147483647 0), faulting (two 1 (-2147483647) (-1)), two 1 2147483647 1], s.holds 4) ∧
    (faulting (two 1 2147483647 0)).readInt 0 + (faulting (two 1 2147483647 0)).readInt 1 = 2147483647 ∧
    (faulting (two 1 (-2147483647) (-1))).readInt 0 + (faulting (two 1 (-2147483647) (-1))).readInt 1 = -2147483648 ∧
    (two 1 2147483647 1).params.overflow = .wrap ∧ (two 1 2147483647 1).readInt 0 + (two 1 2147483647 1).readInt 1 = 2147483648 := by
  decide

theorem witness_SubResult :
    (∀ s ∈ [faulting (two 2 2147483646 (-1)), faulting (two 2 (-2147483647) 1), two 2 0 (-2147483648)], s.holds 4) ∧
    (faulting (two 2 2147483646 (-1))).readInt 0 - (faulting (two 2 2147483646 (-1))).readInt 1 = 2147483647 ∧
    (faulting (two 2 (-2147483647) 1)).readInt 0 - (faulting (two 2 (-2147483647) 1)).readInt 1 = -2147483648 ∧
    (two 2 0 (-2147483648)).params.overflow = .wrap ∧
    (two 2 0 (-2147483648)).readInt 0 - (two 2 0 (-2147483648)).readInt 1 = 2147483648 := by decide

theorem witness_MulResult :
    (∀ s ∈ [faulting (two 3 2147483647 1), faulting (two 3 (-32768) 65536), two 3 32768 65536], s.holds 4) ∧
    (faulting (two 3 2147483647 1)).readInt 0 * (faulting (two 3 2147483647 1)).readInt 1 = 2147483647 ∧
    (faulting (two 3 (-32768) 65536)).readInt 0 * (faulting (two 3 (-32768) 65536)).readInt 1 = -2147483648 ∧
    (two 3 32768 65536).params.overflow = .wrap ∧
    (two 3 32768 65536).readInt 0 * (two 3 32768 65536).readInt 1 = 2147483648 := by decide

/-- The quotient that does not fit, under policy `wrap`; and its neighbour under policy `fault`. -/
theorem witness_DivResult :
    (∀ s ∈ [two 4 (-2147483648) (-1), faulting (two 4 (-2147483647) (-1))],
      s.holds 4 ∧ s.readReg ⟨(1 : Byte).toNat, by decide⟩ ≠ 0) ∧
    (two 4 (-2147483648) (-1)).params.overflow = .wrap ∧
    ¬ ((faulting (two 4 (-2147483647) (-1))).readInt 0 = -2147483648 ∧
      (faulting (two 4 (-2147483647) (-1))).readInt 1 = -1) := by decide

/-- The two neighbours of the quotient that does not fit. -/
theorem witness_DivisionLaw :
    ∀ s ∈ [two 4 (-2147483648) 1, two 4 (-2147483647) (-1)], s.holds 4 ∧ s.readInt ⟨(1 : Byte).toNat, by decide⟩ ≠ 0 ∧
      ¬ (s.readInt ⟨(0 : Byte).toNat, by decide⟩ = -2147483648 ∧ s.readInt ⟨(1 : Byte).toNat, by decide⟩ = -1) := by decide

/-- The least and the greatest target. -/
theorem witness_JumpResult : ∀ v ∈ ([0, 2147483647] : List Int),
    (ints [(0, v)] (buffer [0x05, 0x00])).holds 2 ∧ (ints [(0, v)] (buffer [0x05, 0x00])).readInt 0 = v ∧ 0 ≤ v := by decide

/-- A buffer of `n` zero bytes, `pc` at an offset, and a value in register 0: the offsets near 2^32 need a large buffer. -/
def zeros (n : Nat) (pc : Addr) (v : Int) : State :=
  { ints [(0, v)] State.reset with code := Memory.ofBytes (List.replicate n 0), pc := pc }

theorem zeros_len (n : Nat) (pc : Addr) (v : Int) : (zeros n pc v).len = n := by
  simp [zeros, State.len, Memory.ofBytes]

/-- A distance of 0, and the greatest target, 2^32 − 1. -/
theorem witness_JumpFResult :
    (State.holds (zeros 2 0 0) 2 ∧ 0 ≤ (zeros 2 0 0).readInt 0 ∧
      ((zeros 2 0 0).pc.toNat : Int) + 2 + (zeros 2 0 0).readInt 0 ≤ maxPc) ∧
    (State.holds (zeros 2147483650 2147483648 2147483645) 2 ∧ 0 ≤ (zeros 2147483650 2147483648 2147483645).readInt 0 ∧
      ((zeros 2147483650 2147483648 2147483645).pc.toNat : Int) + 2 +
        (zeros 2147483650 2147483648 2147483645).readInt 0 = maxPc) := by
  refine ⟨⟨?_, ?_, ?_⟩, ?_, ?_, ?_⟩ <;> first | (unfold State.holds; rw [zeros_len]; decide) | decide

/-- The least target, 0, and the greatest, 2^32 − 1. -/
theorem witness_JumpBResult :
    (State.holds (zeros 6 4 6) 2 ∧ 0 ≤ (zeros 6 4 6).readInt 0 ∧ (zeros 6 4 6).readInt 0 = (zeros 6 4 6).pc.toNat + 2) ∧
    (State.holds (zeros 4294967295 4294967293 0) 2 ∧ 0 ≤ (zeros 4294967295 4294967293 0).readInt 0 ∧
      ((zeros 4294967295 4294967293 0).pc.toNat : Int) + 2 - (zeros 4294967295 4294967293 0).readInt 0 = maxPc) := by
  refine ⟨⟨?_, ?_, ?_⟩, ?_, ?_, ?_⟩ <;> first | (unfold State.holds; rw [zeros_len]; decide) | decide

theorem witness_EqualityResults : (two 0x08 (-1) 1).holds 4 ∧ (two 0x08 (-1) 1).len = 4 ∧ (31 : Byte).toNat < 32 := by decide

theorem witness_OrderingResults : (two 0x0A (-1) 1).holds 4 ∧ (two 0x0A (-1) 1).len = 4 ∧ (31 : Byte).toNat < 32 := by decide

/-- Taken with the least target, and not taken with a register that a taken jump would fault on. -/
theorem witness_JumpEqResult :
    (((buffer [0x0E, 0x00]).setCmp true).holds 2 ∧ ((buffer [0x0E, 0x00]).setCmp true).cmp = true ∧
      ((buffer [0x0E, 0x00]).setCmp true).readInt 0 = 0) ∧
    ((ints [(0, -1)] (buffer [0x0E, 0x00])).holds 2 ∧ (ints [(0, -1)] (buffer [0x0E, 0x00])).cmp = false) := by decide

theorem witness_JumpNeqMirrorResult :
    (let s := mirroring (buffer [0x0F, 0x00]);
      s.params.jumpNeq = .mirror ∧ s.holds 2 ∧ s.cmp = false ∧ s.readInt 0 = 0) ∧
    (let s := mirroring ((ints [(0, -1)] (buffer [0x0F, 0x00])).setCmp true);
      s.params.jumpNeq = .mirror ∧ s.holds 2 ∧ s.cmp = true) := by decide

theorem witness_JumpNeqBadRaises : (buffer [0x0F]).params.jumpNeq = .bad := by decide

/-- `5 / 0` and `0 / 0`, the second under policy `fault`. -/
theorem witness_DivideByZeroRaises : ∀ s ∈ [two 4 5 0, faulting (two 4 0 0)],
    s.holds 4 ∧ s.readReg ⟨(1 : Byte).toNat, by decide⟩ = 0 := by decide

/-- Each clause one past the end of the range. -/
theorem witness_ArithOverflowRaises :
    (∀ s ∈ [two 1 2147483647 1, two 1 (-2147483648) (-1), two 2 (-2147483648) 1, two 3 32768 65536, two 4 (-2147483648) (-1)],
      (faulting s).holds 4 ∧ (faulting s).params.overflow = .fault) ∧
    (faulting (two 1 2147483647 1)).readInt 0 + (faulting (two 1 2147483647 1)).readInt 1 = 2147483648 ∧
    (faulting (two 1 (-2147483648) (-1))).readInt 0 + (faulting (two 1 (-2147483648) (-1))).readInt 1 = -2147483649 ∧
    (faulting (two 2 (-2147483648) 1)).readInt 0 - (faulting (two 2 (-2147483648) 1)).readInt 1 = -2147483649 ∧
    (faulting (two 3 32768 65536)).readInt 0 * (faulting (two 3 32768 65536)).readInt 1 = 2147483648 ∧
    (faulting (two 4 (-2147483648) (-1))).readInt 0 = -2147483648 ∧
    (faulting (two 4 (-2147483648) (-1))).readInt 1 = -1 := by decide

/-- Each clause at the value next to a legal one: −1; a forward target of 2^32; a backward target of −1. -/
theorem witness_PcOutOfRangeRaises :
    (State.holds (zeros 2 0 (-1)) 2 ∧ (zeros 2 0 (-1)).readInt 0 = -1) ∧
    (State.holds (zeros 2147483650 2147483648 2147483646) 2 ∧
      ((zeros 2147483650 2147483648 2147483646).pc.toNat : Int) + 2 +
        (zeros 2147483650 2147483648 2147483646).readInt 0 = maxPc + 1) ∧
    (State.holds (zeros 6 4 7) 2 ∧ (zeros 6 4 7).readInt 0 = (zeros 6 4 7).pc.toNat + 3) ∧
    (State.holds ((zeros 2 0 (-1)).setCmp true) 2 ∧ ((zeros 2 0 (-1)).setCmp true).cmp = true ∧
      ((zeros 2 0 (-1)).setCmp true).readInt 0 = -1) ∧
    (State.holds (mirroring (zeros 2 0 (-1))) 2 ∧ (mirroring (zeros 2 0 (-1))).params.jumpNeq = .mirror ∧
      (mirroring (zeros 2 0 (-1))).cmp = false ∧ (mirroring (zeros 2 0 (-1))).readInt 0 = -1) := by
  refine ⟨⟨?_, ?_⟩, ⟨?_, ?_⟩, ⟨?_, ?_⟩, ⟨?_, ?_, ?_⟩, ?_, ?_, ?_, ?_⟩ <;>
    first | (unfold State.holds; rw [zeros_len]; decide) | decide

/-- The first and the last operand byte missing, the second although a later index byte would be bad. -/
theorem witness_FetchPastEndRaises :
    (1 < (Instr.jumpNeq 0).opId.length ∧ (mirroring (buffer [0x0F])).pc.toNat + 1 = (mirroring (buffer [0x0F])).len ∧
      ¬ JumpNeqIsBad (.jumpNeq 0) (mirroring (buffer [0x0F]))) ∧
    (3 < (Instr.div 0 31 40).opId.length ∧ (buffer [0x04, 0, 31]).pc.toNat + 3 = (buffer [0x04, 0, 31]).len ∧
      (∀ (j : Nat) (b : Byte), j + 1 < 3 → (Instr.div 0 31 40).regBytes[j]? = some b → b.toNat < 32) ∧
      ¬ JumpNeqIsBad (.div 0 31 40) (buffer [0x04, 0, 31])) := by
  refine ⟨by decide, by decide, by decide, fun j b hj h => ?_, by decide⟩
  rcases (by omega : j = 0 ∨ j = 1) with rfl | rfl <;> cases h <;> decide

/-- The first index byte, with nothing after it in the buffer; and the third, the first two at their greatest. -/
theorem witness_RegIndexOutOfRangeRaises :
    ((Instr.div 32 99 0).regBytes[0]? = some 32 ∧ 32 ≤ (32 : Byte).toNat ∧ (buffer [0x04, 32]).holds 2 ∧
      (buffer [0x04, 32]).len = 2 ∧ ¬ JumpNeqIsBad (.div 32 99 0) (buffer [0x04, 32])) ∧
    ((Instr.add 31 31 255).regBytes[2]? = some 255 ∧ 32 ≤ (255 : Byte).toNat ∧
      (∀ (k : Nat) (c : Byte), k < 2 → (Instr.add 31 31 255).regBytes[k]? = some c → c.toNat < 32) ∧
      (buffer [0x01, 31, 31, 255]).holds 4 ∧ ¬ JumpNeqIsBad (.add 31 31 255) (buffer [0x01, 31, 31, 255])) := by
  refine ⟨by decide, by decide, by decide, fun k c hk h => ?_, by decide, by decide⟩
  rcases (by omega : k = 0 ∨ k = 1) with rfl | rfl <;> cases h <;> decide

/-- One instruction that completes, and one that takes a fault. -/
theorem witness_FaultsArePreciseAndRecorded :
    (∃ t, exec (.add 0 1 2) (two 1 5 (-7)) = .next t ∧ t.fault = none) ∧
    (∃ t, exec (.div 0 1 2) (two 4 5 0) = .next t ∧ recorded t = some (2, 0, 4, 1)) :=
  ⟨runs_next (by decide), runs_next (by decide)⟩

theorem witness_StepRecordsFetchedOpbyte : (buffer [0x00, 0x05]).Inv ∧ (buffer [0x00, 0x05]).fault = none ∧
    ∃ t, step (buffer [0x00, 0x05]) = .next t ∧ recorded t = some (4, 0, 0, 0) :=
  ⟨buffer_inv (by decide), rfl, sees_next (by decide)⟩

/-- A register other than the destination, an instruction that is no comparison, and one that is no division. -/
theorem witness_ExecFrame : (∃ t, exec (.add 0 1 2) (two 1 5 (-7)) = .next t ∧ t.readInt 2 = -2) ∧
    Instr.dest (.add 0 1 2) ≠ some (BitVec.ofNat 8 (31 : RegIdx).val) ∧ Instr.isComparison (.add 0 1 2) = false ∧
    (Instr.add 0 1 2).opId ≠ .assigned .div :=
  ⟨runs_next (by decide), by decide, by decide, by decide⟩

/-- A comparison that completes; a conditional jump under policy `bad`, which does not read `cmp`. -/
theorem witness_CompareFlagWritersAndReaders :
    (Instr.isComparison (.less 0 1 0) = true ∧ (two 0x0B (-1) 1).fault = none ∧
      ∃ t, exec (.less 0 1 0) (two 0x0B (-1) 1) = .next t ∧ (t.fault, t.cmp) = (none, true)) ∧
    (Instr.isComparison (.jumpNeq 0) = false ∧ ¬ ReadsCmp (.jumpNeq 0) (buffer [0x0F]) ∧
      ∃ t, exec (.jumpNeq 0) (buffer [0x0F]) = .next t ∧ t.pc = 1) :=
  ⟨⟨by decide, rfl, runs_next (by decide)⟩, by decide, by decide, runs_next (by decide)⟩

theorem witness_RemainderWritersAndReaders :
    (∃ t, exec (.div 0 1 2) (two 4 7 2) = .next t ∧ (decide (t.rem ≠ (two 4 7 2).rem)) = true) ∧
    (Transaction.run 2 ≠ .inspect ∧ ∃ t, transact (.run 2) (two 4 7 2) = .next (t, .ran (some .endOfBuffer))) :=
  ⟨runs_next (by decide), by decide, _, rfl⟩

/-- Each clause, the second under both policies. -/
theorem witness_NotTakenReadsNoRegister :
    ((two 0x0E 0 0).cmp = false ∧ ∃ t, exec (.jumpEq 0) (two 0x0E 0 0) = .next t ∧ t.pc = 2) ∧
    ((two 0x0F 0 0).params.jumpNeq = .bad ∧ ∃ t, exec (.jumpNeq 0) (two 0x0F 0 0) = .next t ∧ t.pc = 1) ∧
    (((mirroring (two 0x0F 0 0)).setCmp true).cmp = true ∧
      ∃ t, exec (.jumpNeq 0) ((mirroring (two 0x0F 0 0)).setCmp true) = .next t ∧ t.pc = 2) :=
  ⟨⟨rfl, runs_next (by decide)⟩, ⟨rfl, runs_next (by decide)⟩, rfl, runs_next (by decide)⟩

/-- A buffer that is full, and one that has room for one byte. -/
theorem witness_CodeBufferIsAppendOnly :
    (let s : State := { buffer [1] with params := { defaultParams with codeCap := 1 } };
      s.len = s.params.codeCap ∧ ∃ t, transact (.addByte 5) s = .next (t, .added .full) ∧ t.code = s.code) ∧
    (∃ t, transact (.addByte 5) (buffer []) = .next (t, .added .ok) ∧ t.code = [(0, 5)]) ∧
    (∃ t, transact .reset (buffer [1]) = .next (t, .done) ∧ t.code = []) :=
  ⟨⟨rfl, _, rfl, rfl⟩, ⟨_, rfl, rfl⟩, _, rfl, rfl⟩

theorem witness_TerminalStatesAreSticky :
    (let s := (buffer [0xFE]).setStatus .halted;
      s.status ≠ .running ∧ Transaction.addByte 5 ≠ .reset ∧ ∃ t r, transact (.addByte 5) s = .next (t, r)) ∧
    ((buffer [0xFE]).setStatus .halted).status = .halted ∧
    (let s : State := { buffer [0xC8] with status := .faulted, fault := some ⟨.invalidOpcode, 0, 0xC8, 0xC8⟩ };
      s.status = .faulted ∧ s.fault = some ⟨.invalidOpcode, 0, 0xC8, 0xC8⟩) :=
  ⟨⟨by decide, by decide, _, _, rfl⟩, rfl, rfl, rfl⟩

theorem witness_TickOutcomes : (buffer [0xFE]).Inv := buffer_inv (by decide)

/-- The last byte that fits, and the first that does not. -/
theorem witness_AddByteResult :
    (let s : State := { buffer [1] with params := { defaultParams with codeCap := 2 } };
      s.code.wf ∧ s.len + 1 = s.params.codeCap) ∧
    (let s : State := { buffer [1] with params := { defaultParams with codeCap := 1 } };
      s.code.wf ∧ s.params.codeCap = s.len) := by decide

theorem witness_HostResetValues : ∃ t r, transact .reset (two 1 5 (-7)) = .next (t, r) := ⟨_, _, rfl⟩

/-- A program that fills the buffer. -/
theorem witness_BootLoadsProgram :
    ([0xFE, 1] : List Byte).length = { State.reset with params := { defaultParams with codeCap := 2 } }.params.codeCap := by decide

/-- The instruction fills the buffer. -/
theorem witness_AppendedInstructionRuns :
    let s : State := { buffer [0, 0, 0, 5] with pc := 4, params := { defaultParams with codeCap := 8 } };
    s.Inv ∧ s.status = .running ∧ (Instr.load 1 7).wellFormed = true ∧ s.pc.toNat = s.len ∧
    s.len + (Instr.load 1 7).opId.length = s.params.codeCap :=
  ⟨⟨by decide, by decide, by decide, by decide⟩, rfl, rfl, rfl, rfl⟩

/-- The instruction is the last thing in the buffer. -/
theorem witness_AppendCommutesWithExec : (two 1 5 (-7)).holds (Instr.add 0 1 2).opId.length ∧
    (two 1 5 (-7)).len = (Instr.add 0 1 2).opId.length ∧ ∃ t, exec (.add 0 1 2) (two 1 5 (-7)) = .next t ∧ t.pc = 4 :=
  ⟨by decide, by decide, runs_next (by decide)⟩

theorem witness_RunEndsInTerminalOutcome : ∃ t, run 1 (buffer [0xFE]) = .next (t, some .halted) := ⟨_, rfl⟩

theorem witness_InspectShowsAllState : (buffer [1, 2]).code.wf := by decide

theorem witness_LexerEndsInEof : ({ rest := [], pos := 7, line := 2 } : Asm.Lexer).rest = [] := rfl

/-- Each clause at its end: a spelling before a digit and at the end of the text; the greatest value that fits and the next. -/
theorem witness_LexerReadsOpcodesAndLiterals :
    (Asm.ascii "JumpF" ∈ Asm.spellings .jumpF ∧ (Asm.ascii "0").head?.all (fun b => !Asm.isLetter b) = true ∧
      ([] : List Byte).head?.all (fun b => !Asm.isLetter b) = true) ∧
    ((Asm.ascii "100000000").all Asm.isHexDigit = true ∧ (Asm.ascii "g").head?.all (fun b => !Asm.isHexDigit b) = true ∧
      Nat.ofDigits 16 ((Asm.ascii "fFFFFFFF").reverse.map Asm.digitValue) = 4294967295 ∧
      Nat.ofDigits 16 ((Asm.ascii "100000000").reverse.map Asm.digitValue) = 4294967296) ∧
    ((Asm.ascii "2147483647").all Asm.isDecDigit = true ∧ (Asm.ascii "a").head?.all (fun b => !Asm.isDecDigit b) = true ∧
      Nat.ofDigits 10 ((Asm.ascii "2147483647").reverse.map Asm.digitValue) = 2147483647 ∧
      Nat.ofDigits 10 ((Asm.ascii "2147483648").reverse.map Asm.digitValue) = 2147483648) := by decide

/-- The lexemes of a line, all at one place, and its end. -/
def lineOf (ts : List Asm.Token) : Asm.Line :=
  { tokens := ts.map fun t => { token := t, start := 0, stop := 0, line := 1 }
    last := { token := .eof, start := 0, stop := 0, line := 1 } }

/-- A line that writes an instruction; one with an operand too many, and one with an operand of the other kind. -/
theorem witness_EachLineGivesInstrOrError :
    Asm.LineWrites (lineOf [.op .load, .reg 0, .int 500])
      { op := .load, operands := [.reg 0, .int 500], line := 1, label := none } ∧
    (lineOf [.op .halt, .reg 0]).tokens ≠ [] ∧ (¬ ∃ i, Asm.LineWrites (lineOf [.op .halt, .reg 0]) i) ∧
    (¬ ∃ i, Asm.LineWrites (lineOf [.op .jump, .int 0]) i) ∧ (lineOf []).tokens = [] := by
  refine ⟨⟨rfl, rfl, rfl, rfl⟩, by decide, ?_, ?_, rfl⟩
  · rintro ⟨⟨op, os, line, label⟩, h, k, -, -⟩
    cases os <;> simp [lineOf] at h
    obtain ⟨rfl, -⟩ := h
    cases k
  · rintro ⟨⟨op, os, line, label⟩, h, k, -, -⟩
    rcases os with _ | ⟨o, os⟩ <;> simp [lineOf] at h
    obtain ⟨rfl, h, -⟩ := h
    cases o <;> cases h
    cases k

theorem witness_ParsedOperandsFitOpcode :
    { op := .load, operands := [.reg 0, .int 500], line := 1, label := none } ∈ (Asm.parseSource (Asm.ascii "Load $0 #500")).instrs := by
  decide

theorem witness_AssembledProgramDecodes : { defaultParams with opmap := otherMap, padByte := 0xAB }.Legal ∧
    Asm.assembleSource { defaultParams with opmap := otherMap, padByte := 0xAB } (Asm.ascii "Eq $0 $1") = [0x08, 0, 1, 0xAB] := by
  decide

end Sys2Proof.Tests
end

/-! PROOFS. Truncating division on signed 32-bit values (R16), what a completing `Div` answers (R124), and its law (R125). -/

namespace Sys2Proof.Machine

/-! ## Signed 32-bit values. -/

theorem State.readInt_fits32 (s : State) (k : RegIdx) : fits32 (s.readInt k) = true :=
  (fits32_iff _).mpr ⟨BitVec.le_toInt (s.readReg k), BitVec.toInt_le⟩

/-- A value in the signed range survives the trip through its 32 bits (R11, R123). -/
theorem toInt_ofInt_of_fits32 {n : Int} (h : fits32 n = true) : (BitVec.ofInt 32 n).toInt = n := by
  obtain ⟨hlo, hhi⟩ := (fits32_iff n).mp h
  exact BitVec.toInt_ofInt_eq_self (by decide) hlo (Int.lt_add_one_of_le hhi)

@[simp] theorem State.setReg_readInt_same (s : State) (i : RegIdx) (v : Word) : (s.setReg i v).readInt i = v.toInt := by
  simp [State.readInt]

/-! ## `trunc_div` and its remainder. -/

theorem truncDiv_natAbs (A B : Int) : (truncDiv A B).natAbs = A.natAbs / B.natAbs := Int.natAbs_tdiv A B

theorem truncRem_eq_tmod (A B : Int) : truncRem A B = A.tmod B := (Int.tmod_def A B).symm

theorem mul_truncDiv_add_truncRem (A B : Int) : B * truncDiv A B + truncRem A B = A := by
  simp [truncRem]

theorem truncRem_natAbs_lt (A : Int) {B : Int} (hB : B ≠ 0) : (truncRem A B).natAbs < B.natAbs := by
  rw [truncRem_eq_tmod, Int.natAbs_tmod]
  exact Nat.mod_lt _ (Int.natAbs_pos.mpr hB)

/-- The remainder is zero or has the dividend's sign (R16, K1). -/
theorem truncRem_eq_zero_or_pos_iff (A B : Int) : truncRem A B = 0 ∨ (0 < truncRem A B ↔ 0 < A) := by
  have hsign := Int.sign_tmod A B
  rw [← truncRem_eq_tmod] at hsign
  by_cases hdvd : B ∣ A
  · rw [if_pos hdvd] at hsign
    exact .inl (Int.sign_eq_zero_iff_zero.mp hsign)
  · rw [if_neg hdvd] at hsign
    exact .inr (by rw [← Int.sign_eq_one_iff_pos, hsign, Int.sign_eq_one_iff_pos])

/-- `-2^31 / -1` is the only quotient of signed 32-bit values that does not fit (R125): a divisor of size 2 or more at least
halves the dividend. -/
theorem truncDiv_fits32 {A B : Int} (hA : fits32 A = true) (hexc : ¬ (A = -2147483648 ∧ B = -1)) :
    fits32 (truncDiv A B) = true := by
  rw [fits32_iff] at hA ⊢
  by_cases hneg : B = -1
  · subst hneg
    simp only [truncDiv, Int.tdiv_neg, Int.tdiv_one]
    omega
  by_cases hone : B = 1
  · subst hone
    simpa [truncDiv] using hA
  by_cases hzero : B = 0
  · subst hzero
    simp [truncDiv]
  have hhalf : (truncDiv A B).natAbs ≤ A.natAbs / 2 := by
    rw [truncDiv_natAbs]
    exact Nat.div_le_div_left (by omega) (by decide)
  omega

/-- The remainder of signed 32-bit values fits: it is smaller in size than the divisor. -/
theorem truncRem_fits32 (A : Int) {B : Int} (hB : fits32 B = true) (hB0 : B ≠ 0) : fits32 (truncRem A B) = true := by
  rw [fits32_iff] at hB ⊢
  have hlt := truncRem_natAbs_lt A hB0
  omega

/-! ## A `Div` that raises nothing. -/

/-- No operand fetch raises where the whole instruction is in the buffer and every index names a register (R53, R54). -/
theorem FetchRaise.false_of_holds {regs : List Byte} {n : Nat} {s : State} {e : Raised} {k : Nat}
    (hraise : FetchRaise regs n s e k) (h : s.holds n) (hregs : ∀ c ∈ regs, c.toNat < 32) : False := by
  obtain ⟨⟨-, hk⟩, -, ⟨hend, -⟩ | ⟨-, c, hc, hbad, -⟩⟩ := hraise
  · simp only [State.holds] at h
    omega
  · exact absurd (hregs c (List.mem_of_getElem? hc)) (Nat.not_lt.mpr hbad)

/-- What a `Div` that raises nothing answers (R124). -/
theorem exec_div_ok {a b d : Byte} {s : State} (h : s.holds 4) (ha : a.toNat < 32) (hb : b.toNat < 32)
    (hd : d.toNat < 32) (hB : s.readInt ⟨b.toNat, hb⟩ ≠ 0)
    (hq : s.params.overflow = .wrap ∨ fits32 (truncDiv (s.readInt ⟨a.toNat, ha⟩) (s.readInt ⟨b.toNat, hb⟩)) = true) :
    exec (.div a b d) s = .next (((s.setReg ⟨d.toNat, hd⟩
      (BitVec.ofInt 32 (truncDiv (s.readInt ⟨a.toNat, ha⟩) (s.readInt ⟨b.toNat, hb⟩)))).setRem
      (BitVec.ofInt 32 (truncRem (s.readInt ⟨a.toNat, ha⟩) (s.readInt ⟨b.toNat, hb⟩)))).setPc (s.pc.toNat + 4)) := by
  rcases divide_cases a b d s with ⟨e, k, hraise, -⟩ | ⟨-, _, _, _, ⟨hzero, -⟩ | ⟨-, hp, hf, -⟩ | ⟨-, -, hok⟩⟩
  · exact (hraise.false_of_holds h (by simp [ha, hb, hd])).elim
  · exact absurd hzero hB
  · simp [hp, hf] at hq
  · simp only [exec, execDiv, hok, perform]

/-- Settles O20: outside `-2^31 / -1` quotient and remainder both fit, so the registers hold the exact integers, and the law
is that of `trunc_div`. -/
theorem divisionLaw : Obligations.DivisionLaw := by
  intro s a b d ha hb hd h4 A B hB hexc
  have hq : fits32 (truncDiv A B) = true := truncDiv_fits32 (s.readInt_fits32 _) hexc
  have hr : fits32 (truncRem A B) = true := truncRem_fits32 A (s.readInt_fits32 _) hB
  refine ⟨_, exec_div_ok h4 ha hb hd hB (.inr hq), ?_⟩
  simp only [State.setPc_readInt, State.setRem_readInt, State.setReg_readInt_same, State.setPc_rem, State.setRem_rem]
  rw [toInt_ofInt_of_fits32 hq, toInt_ofInt_of_fits32 hr]
  exact ⟨(mul_truncDiv_add_truncRem A B).symm, truncDiv_natAbs A B, truncRem_natAbs_lt A hB, truncRem_eq_zero_or_pos_iff A B⟩

end Sys2Proof.Machine

/-! PROOFS. What an instruction can do, said once: the pseudocode it runs, what a completion leaves unchanged (R21, R27, R28),
where it raises (R173, R176), and that the two flags pass through it. -/

namespace Sys2Proof.Machine

/-! ## The pseudocode of an instruction. -/

/-- The pseudocode that `exec` performs for an instruction (R95). -/
def Instr.body : Instr → State → Exec State
  | .load r imm, s => do
    let o ← formRI r s
    pure ((s.setReg o.r (imm.setWidth 32)).setPc o.pc)
  | .add a b d, s => arith (fun x y => x + y) a b d s
  | .sub a b d, s => arith (fun x y => x - y) a b d s
  | .mul a b d, s => arith (fun x y => x * y) a b d s
  | .div a b d, s => divide a b d s
  | .jump r, s => jumpTo (fun _ v => v) r s
  | .jumpF r, s => jumpBy (fun pc v => (pc : Int) + v) r s
  | .jumpB r, s => jumpBy (fun pc v => (pc : Int) - v) r s
  | .eq a b _, s => compareRegs relEq a b s
  | .notEq a b _, s => compareRegs relNotEq a b s
  | .greater a b _, s => compareRegs relGreater a b s
  | .less a b _, s => compareRegs relLess a b s
  | .greaterEq a b _, s => compareRegs relGreaterEq a b s
  | .lessEq a b _, s => compareRegs relLessEq a b s
  | .jumpEq r, s => jumpIf s.cmp r s
  | .jumpNeq r, s =>
    match s.params.jumpNeq with
    | .bad => .error { cause := .invalidOpcode, info := s.opbyte .jumpNeq, pc := s.afterOpcode }
    | .mirror => jumpIf (!s.cmp) r s
  | .halt, s => .ok ((s.setStatus .halted).setPc s.afterOpcode)
  | .bad o, s => .error { cause := .invalidOpcode, info := o, pc := s.afterOpcode }

/-- Every instruction performs its pseudocode under its own opcode byte (R95, R96). -/
theorem exec_eq_perform (i : Instr) (s : State) : exec i s = perform (i.b0 s.params.opmap) s (Instr.body i s) := by
  cases i <;> rfl

theorem exec_of_body_ok {i : Instr} {s t : State} (h : Instr.body i s = .ok t) : exec i s = .next t := by
  rw [exec_eq_perform, h, perform]

theorem exec_of_body_error {i : Instr} {s : State} {e : Raised} (h : Instr.body i s = .error e) :
    exec i s = .next (takeFault (i.b0 s.params.opmap) e s) := by
  rw [exec_eq_perform, h, perform]

/-- `exec` is total (R96). -/
theorem exec_answers (i : Instr) (s : State) : ∃ t, exec i s = .next t := by
  cases h : Instr.body i s with
  | ok t => exact ⟨t, exec_of_body_ok h⟩
  | error e => exact ⟨_, exec_of_body_error h⟩

/-- A fault entered `n` bytes past `ipc` under the instruction's own opcode byte is the state of R178, R179. -/
theorem takeFault_eq_afterFault {i : Instr} {s : State} {e : Raised} {n : Nat} (hpc : e.pc = s.pc.toNat + n) :
    takeFault (i.b0 s.params.opmap) e s = s.afterFault i e.cause e.info n := by
  simp only [takeFault, State.afterFault, hpc, State.ofNat_pc_add]

/-! ## What an instruction leaves unchanged. -/

/-- What `i` leaves unchanged where it took `s` to `t`, whether it completed or took a fault (R21, R27, R28, R51). -/
structure Frame (i : Instr) (s t : State) : Prop where
  regs   : ∀ k : RegIdx, Instr.dest i ≠ some (BitVec.ofNat 8 k.val) → t.readReg k = s.readReg k
  cmp    : Instr.isComparison i = false → t.cmp = s.cmp
  rem    : i.opId ≠ .assigned .div → t.rem = s.rem
  code   : t.code = s.code
  params : t.params = s.params

/-- A completion of `i` from `s` to `t`: its frame, and the latches, of which only `Halt` writes `status` (R30, R160). -/
structure Completion (i : Instr) (s t : State) : Prop extends Frame i s t where
  fault  : t.fault = s.fault
  status : t.status = if i = .halt then .halted else s.status

theorem takeFault_frame (i : Instr) (o : Byte) (e : Raised) (s : State) : Frame i s (takeFault o e s) :=
  ⟨fun _ _ => rfl, fun _ => rfl, fun _ => rfl, rfl, rfl⟩

/-- An instruction that writes only the program counter. -/
theorem setPc_completion {i : Instr} (s : State) (n : Nat) (hi : i ≠ .halt) : Completion i s (s.setPc n) :=
  ⟨⟨fun _ _ => rfl, fun _ => rfl, fun _ => rfl, rfl, rfl⟩, rfl, by simp [hi]⟩

/-- An instruction that writes its destination register. -/
theorem setReg_completion {i : Instr} {d : Byte} (s : State) (hd : d.toNat < 32) (v : Word) (n : Nat)
    (hdest : Instr.dest i = some d) : Completion i s ((s.setReg ⟨d.toNat, hd⟩ v).setPc n) where
  regs k hk := by
    refine State.setReg_readReg_ne s v ?_
    rintro rfl
    exact hk (by simp [hdest])
  cmp _ := rfl
  rem _ := rfl
  code := rfl
  params := rfl
  fault := rfl
  status := by
    have hi : i ≠ .halt := by
      rintro rfl
      cases hdest
    simp [hi]

/-- A comparison, which writes `cmp`. -/
theorem setCmp_completion {i : Instr} (s : State) (c : Bool) (n : Nat) (hi : Instr.isComparison i = true) :
    Completion i s ((s.setCmp c).setPc n) where
  regs _ _ := rfl
  cmp h := absurd h (by simp [hi])
  rem _ := rfl
  code := rfl
  params := rfl
  fault := rfl
  status := by
    have hne : i ≠ .halt := by
      rintro rfl
      cases hi
    simp [hne]

/-- `Div` writes `rem` besides its destination. -/
theorem div_completion {a b d : Byte} (s : State) (hd : d.toNat < 32) (q r : Word) (n : Nat) :
    Completion (.div a b d) s (((s.setReg ⟨d.toNat, hd⟩ q).setRem r).setPc n) :=
  { setReg_completion (i := .div a b d) s hd q n rfl with rem := fun h => absurd rfl h }

theorem halt_completion (s : State) : Completion .halt s ((s.setStatus .halted).setPc s.afterOpcode) :=
  ⟨⟨fun _ _ => rfl, fun _ => rfl, fun _ => rfl, rfl, rfl⟩, rfl, rfl⟩

/-! ## All that the pseudocode of an instruction can answer. -/

/-- The three answers of the pseudocode of `i` in `s` (R176): a raise in fetching its operands; a raise once every index byte
is checked, or with none fetched; a completion. -/
inductive BodyAnswer (i : Instr) (s : State) : Prop where
  | fetchRaise (e : Raised) (k : Nat) (raise : FetchRaise i.regBytes i.opId.length s e k) (eq : Instr.body i s = .error e)
  | otherRaise (e : Raised) (cause : e.cause ≠ .fetchPastEnd) (named : i.regsNamed = true ∨ JumpNeqIsBad i s)
      (eq : Instr.body i s = .error e)
  | completes (t : State) (completion : Completion i s t) (named : i.regsNamed = true) (eq : Instr.body i s = .ok t)

theorem regsNamed_of_one {i : Instr} {r : Byte} (hi : i.regBytes = [r]) (hr : r.toNat < 32) : i.regsNamed = true := by
  simp [Instr.regsNamed, hi, hr]

theorem regsNamed_of_two {i : Instr} {a b : Byte} (hi : i.regBytes = [a, b]) (ha : a.toNat < 32) (hb : b.toNat < 32) :
    i.regsNamed = true := by
  simp [Instr.regsNamed, hi, ha, hb]

theorem regsNamed_of_three {i : Instr} {a b d : Byte} (hi : i.regBytes = [a, b, d]) (ha : a.toNat < 32)
    (hb : b.toNat < 32) (hd : d.toNat < 32) : i.regsNamed = true := by
  simp [Instr.regsNamed, hi, ha, hb, hd]

/-- A conditional jump that runs `jumpIf` (R150, R151). -/
theorem bodyAnswer_of_jumpIf {i : Instr} {s : State} {taken : Bool} {r : Byte} (hbody : Instr.body i s = jumpIf taken r s)
    (hregs : i.regBytes = [r]) (hlen : i.opId.length = 2) (hi : i ≠ .halt) : BodyAnswer i s := by
  rcases jumpIf_cases taken r s with ⟨e, k, hraise, h⟩ | ⟨-, hr, ⟨-, h⟩ | ⟨-, -, h⟩ | ⟨-, -, h⟩⟩
  · exact .fetchRaise e k (by rwa [hregs, hlen]) (hbody.trans h)
  · exact .completes _ (setPc_completion s _ hi) (regsNamed_of_one hregs hr) (hbody.trans h)
  · exact .otherRaise _ (by nofun) (.inl (regsNamed_of_one hregs hr)) (hbody.trans h)
  · exact .completes _ (setPc_completion s _ hi) (regsNamed_of_one hregs hr) (hbody.trans h)

/-- A comparison (R139). -/
theorem bodyAnswer_of_compareRegs {i : Instr} {s : State} {rel : Int → Int → Bool} {a b : Byte}
    (hbody : Instr.body i s = compareRegs rel a b s) (hregs : i.regBytes = [a, b]) (hlen : i.opId.length = 4)
    (hi : Instr.isComparison i = true) : BodyAnswer i s := by
  rcases compare_cases rel a b s with ⟨e, k, hraise, h⟩ | ⟨-, ha, hb, h⟩
  · exact .fetchRaise e k (by rwa [hregs, hlen]) (hbody.trans h)
  · exact .completes _ (setCmp_completion s _ _ hi) (regsNamed_of_two hregs ha hb) (hbody.trans h)

/-- A relative jump (R131, R132). -/
theorem bodyAnswer_of_jumpBy {i : Instr} {s : State} {target : Nat → Int → Int} {r : Byte}
    (hbody : Instr.body i s = jumpBy target r s) (hregs : i.regBytes = [r]) (hlen : i.opId.length = 2) (hi : i ≠ .halt) :
    BodyAnswer i s := by
  rcases jumpBy_cases target r s with ⟨e, k, hraise, h⟩ | ⟨-, hr, _, -, ⟨-, h⟩ | ⟨-, -, -, h⟩⟩
  · exact .fetchRaise e k (by rwa [hregs, hlen]) (hbody.trans h)
  · exact .otherRaise _ (by nofun) (.inl (regsNamed_of_one hregs hr)) (hbody.trans h)
  · exact .completes _ (setPc_completion s _ hi) (regsNamed_of_one hregs hr) (hbody.trans h)

/-- `Add`, `Sub` and `Mul` (R119). -/
theorem bodyAnswer_of_arith {i : Instr} {s : State} {f : Int → Int → Int} {a b d : Byte}
    (hbody : Instr.body i s = arith f a b d s) (hregs : i.regBytes = [a, b, d]) (hlen : i.opId.length = 4)
    (hdest : Instr.dest i = some d) : BodyAnswer i s := by
  rcases arith_cases f a b d s with ⟨e, k, hraise, h⟩ | ⟨-, ha, hb, hd, ⟨-, -, h⟩ | ⟨-, h⟩⟩
  · exact .fetchRaise e k (by rwa [hregs, hlen]) (hbody.trans h)
  · exact .otherRaise _ (by nofun) (.inl (regsNamed_of_three hregs ha hb hd)) (hbody.trans h)
  · exact .completes _ (setReg_completion s hd _ _ hdest) (regsNamed_of_three hregs ha hb hd) (hbody.trans h)

/-- Every instruction's pseudocode answers so: each cites what its shared shape can do. -/
theorem bodyAnswer (i : Instr) (s : State) : BodyAnswer i s := by
  cases i with
  | load r imm =>
    rcases formRI_cases r s with ⟨e, k, hraise, h⟩ | ⟨-, hr, h⟩
    · exact .fetchRaise e k hraise (by rw [Instr.body, h]; rfl)
    · exact .completes _ (setReg_completion s hr _ _ rfl) (regsNamed_of_one rfl hr) (by rw [Instr.body, h]; rfl)
  | add a b d | sub a b d | mul a b d => exact bodyAnswer_of_arith rfl rfl rfl rfl
  | div a b d =>
    rcases divide_cases a b d s with
      ⟨e, k, hraise, h⟩ | ⟨-, ha, hb, hd, ⟨-, h⟩ | ⟨-, -, -, h⟩ | ⟨-, -, h⟩⟩
    · exact .fetchRaise e k hraise h
    · exact .otherRaise _ (by nofun) (.inl (regsNamed_of_three rfl ha hb hd)) h
    · exact .otherRaise _ (by nofun) (.inl (regsNamed_of_three rfl ha hb hd)) h
    · exact .completes _ (div_completion s hd _ _ _) (regsNamed_of_three rfl ha hb hd) h
  | jump r =>
    rcases jumpTo_cases (fun _ v => v) r s with ⟨e, k, hraise, h⟩ | ⟨-, hr, _, -, ⟨-, h⟩ | ⟨-, -, h⟩⟩
    · exact .fetchRaise e k hraise h
    · exact .otherRaise _ (by nofun) (.inl (regsNamed_of_one rfl hr)) h
    · exact .completes _ (setPc_completion s _ nofun) (regsNamed_of_one rfl hr) h
  | jumpF r => exact bodyAnswer_of_jumpBy (target := fun pc v => (pc : Int) + v) rfl rfl rfl nofun
  | jumpB r => exact bodyAnswer_of_jumpBy (target := fun pc v => (pc : Int) - v) rfl rfl rfl nofun
  | eq a b pad | notEq a b pad | greater a b pad | less a b pad | greaterEq a b pad | lessEq a b pad =>
    exact bodyAnswer_of_compareRegs rfl rfl rfl rfl
  | jumpEq r => exact bodyAnswer_of_jumpIf rfl rfl rfl nofun
  | jumpNeq r =>
    cases hpolicy : s.params.jumpNeq with
    | bad =>
      have hbody : Instr.body (.jumpNeq r) s =
          .error { cause := .invalidOpcode, info := s.opbyte .jumpNeq, pc := s.afterOpcode } := by
        rw [Instr.body, hpolicy]
      exact .otherRaise _ (by nofun) (.inr ⟨rfl, hpolicy⟩) hbody
    | mirror => exact bodyAnswer_of_jumpIf (by rw [Instr.body, hpolicy]) rfl rfl nofun
  | halt => exact .completes _ (halt_completion s) rfl rfl
  | bad o => exact .otherRaise _ (by nofun) (.inl rfl) rfl

/-- What `exec` has done where it answers (R95): it completed, or it took the fault that its pseudocode raised. -/
theorem exec_cases {i : Instr} {s t : State} (h : exec i s = .next t) :
    (Instr.body i s = .ok t ∧ Completion i s t) ∨
    (∃ e, Instr.body i s = .error e ∧ t = takeFault (i.b0 s.params.opmap) e s) := by
  rcases bodyAnswer i s with ⟨e, -, -, hbody⟩ | ⟨e, -, -, hbody⟩ | ⟨u, hu, -, hbody⟩
  · exact .inr ⟨e, hbody, by simpa [exec_of_body_error hbody] using h.symm⟩
  · exact .inr ⟨e, hbody, by simpa [exec_of_body_error hbody] using h.symm⟩
  · obtain rfl : u = t := by simpa [exec_of_body_ok hbody] using h
    exact .inl ⟨hbody, hu⟩

theorem exec_frame {i : Instr} {s t : State} (h : exec i s = .next t) : Frame i s t := by
  rcases exec_cases h with ⟨-, ht⟩ | ⟨e, -, rfl⟩
  · exact ht.toFrame
  · exact takeFault_frame i _ e s

/-- Settles O38: every instruction keeps its frame, and the buffer and the parameters whole. -/
theorem execFrame : Obligations.ExecFrame := by
  intro i s t h
  obtain ⟨hregs, hcmp, hrem, hcode, hparams⟩ := exec_frame h
  exact ⟨hregs, hcmp, hrem, fun a => by rw [hcode], congrArg List.length hcode, hparams⟩

/-! ## Where the operand fetch raises. -/

/-- The operand fetch raises at the first index byte of 32 or more, where that byte is in the buffer (R54, R176). -/
theorem FetchRaise.eq_badIndex {regs : List Byte} {n j k : Nat} {s : State} {e : Raised} {b : Byte}
    (hraise : FetchRaise regs n s e k) (hj : regs[j]? = some b) (hb : 32 ≤ b.toNat)
    (hfirst : ∀ (m : Nat) (c : Byte), m < j → regs[m]? = some c → c.toNat < 32) (h : s.holds (j + 2)) :
    e = { cause := .regIndexOutOfRange, info := b, pc := s.pc.toNat + (j + 2) } := by
  obtain ⟨⟨hk, -⟩, hbefore, hhere⟩ := hraise
  simp only [State.holds] at h
  have hkj : k ≤ j + 1 := by
    by_contra hlt
    have hnamed := (hbefore (j + 1) (by omega) (by omega)).2 b hj
    omega
  obtain ⟨hend, -⟩ | ⟨-, c, hc, hc32, rfl⟩ := hhere
  · omega
  · obtain rfl : k = j + 1 := by
      by_contra hne
      have hnamed := hfirst (k - 1) c (by omega) hc
      omega
    obtain rfl : c = b := by simpa [hj] using hc.symm
    rfl

/-- `FetchPastEnd` leaves the program counter at LEN, where the opcode byte itself is in the buffer (R179). -/
theorem FetchRaise.pc_eq_len {regs : List Byte} {n k : Nat} {s : State} {e : Raised} (hraise : FetchRaise regs n s e k)
    (hpc : s.pc.toNat < s.len) (hcause : e.cause = .fetchPastEnd) : e.pc = s.len := by
  obtain ⟨⟨hk, -⟩, hbefore, ⟨hend, rfl⟩ | ⟨-, c, -, -, rfl⟩⟩ := hraise
  · have hprev : s.pc.toNat + (k - 1) < s.len := by
      by_cases h1 : k = 1
      · simpa [h1] using hpc
      · exact (hbefore (k - 1) (by omega) (by omega)).1
    show s.pc.toNat + k = s.len
    omega
  · cases hcause

theorem lt_of_regsNamed {i : Instr} {j : Nat} {b : Byte} (h : i.regsNamed = true) (hj : i.regBytes[j]? = some b) :
    b.toNat < 32 := by
  simpa using List.all_eq_true.mp h b (List.mem_of_getElem? hj)

/-- Settles O35: the operand fetch stops at that byte, and no other answer is possible with an index of 32 or more. -/
theorem regIndexOutOfRangeRaises : Obligations.RegIndexOutOfRangeRaises := by
  intro i s j b hj hb hfirst h hpolicy
  rcases bodyAnswer i s with ⟨e, k, hraise, hbody⟩ | ⟨-, -, hnamed | hbad, -⟩ | ⟨-, -, hnamed, -⟩
  · obtain rfl := hraise.eq_badIndex hj hb hfirst h
    rw [exec_of_body_error hbody, takeFault_eq_afterFault rfl]
  · exact absurd (lt_of_regsNamed hnamed hj) (by omega)
  · exact absurd hbad hpolicy
  · exact absurd (lt_of_regsNamed hnamed hj) (by omega)

end Sys2Proof.Machine

/-! PROOFS. The two flags pass through an instruction: `cmp` and `rem` are only what it writes to them, and only the conditional
jumps read `cmp` (R27, R28). -/

namespace Sys2Proof.Machine

/-- The state with the two flags at these values. -/
def State.setFlags (s : State) (c : Bool) (v : Word) : State := (s.setCmp c).setRem v

/-- The flags of a completion `t` of `i` where it began with `c` and `v`: those that `i` does not write are handed on. -/
def Instr.handFlags (i : Instr) (c : Bool) (v : Word) (t : State) : State :=
  t.setFlags (if Instr.isComparison i then t.cmp else c) (if i.opId = .assigned .div then t.rem else v)

/-- A conditional jump that is decided alike does not see the flags. -/
theorem jumpIf_setFlags (taken : Bool) (r : Byte) (s : State) (c : Bool) (v : Word) :
    jumpIf taken r (s.setFlags c v) = (fun t => t.setFlags c v) <$> jumpIf taken r s := by
  simp only [jumpIf, map_bind, map_pure, apply_ite]
  rfl

/-- Unless the instruction reads `cmp`, its pseudocode takes both flags as they come: they change no raise and no result, and
what it does not write it hands on. -/
theorem body_setFlags {i : Instr} {s : State} {c : Bool} (v : Word) (hread : ReadsCmp i s → c = s.cmp) :
    Instr.body i (s.setFlags c v) = Instr.handFlags i c v <$> Instr.body i s := by
  cases i with
  | load r imm =>
    simp only [Instr.body, map_bind, map_pure]
    rfl
  | add a b d | sub a b d | mul a b d =>
    simp only [Instr.body, arith, map_bind, map_pure]
    rfl
  | div a b d =>
    simp only [Instr.body, divide, map_bind, map_pure, apply_ite]
    rfl
  | jump r =>
    simp only [Instr.body, jumpTo, map_bind, map_pure]
    rfl
  | jumpF r | jumpB r =>
    simp only [Instr.body, jumpBy, map_bind, map_pure, apply_ite]
    rfl
  | eq a b pad | notEq a b pad | greater a b pad | less a b pad | greaterEq a b pad | lessEq a b pad =>
    simp only [Instr.body, compareRegs, map_bind, map_pure]
    rfl
  | jumpEq r =>
    obtain rfl : c = s.cmp := hread (.inl rfl)
    exact jumpIf_setFlags s.cmp r s s.cmp v
  | jumpNeq r =>
    have hparams : (s.setFlags c v).params = s.params := rfl
    cases hpolicy : s.params.jumpNeq with
    | bad =>
      simp only [Instr.body, hparams, hpolicy]
      rfl
    | mirror =>
      obtain rfl : c = s.cmp := hread (.inr ⟨rfl, hpolicy⟩)
      simp only [Instr.body, hparams, hpolicy]
      exact jumpIf_setFlags (!s.cmp) r s s.cmp v
  | halt => rfl
  | bad o => rfl

/-- The flags in the states that `exec` answers: one that began with other flags ends in the same state but for them, and a flag
that was the same before is the same after. -/
theorem exec_setFlags {i : Instr} {s t : State} {c : Bool} (v : Word) (hread : ReadsCmp i s → c = s.cmp)
    (h : exec i s = .next t) :
    ∃ c' v', exec i (s.setFlags c v) = .next (t.setFlags c' v') ∧
      (c = s.cmp → c' = t.cmp) ∧ (v = s.rem → v' = t.rem) := by
  have hbody := body_setFlags v hread
  rcases exec_cases h with ⟨hok, hframe⟩ | ⟨e, herr, rfl⟩
  · rw [hok] at hbody
    refine ⟨_, _, exec_of_body_ok hbody, fun hc => ?_, fun hv => ?_⟩
    · cases hi : Instr.isComparison i
      · simp [hc, hframe.cmp hi]
      · simp
    · by_cases hi : i.opId = .assigned .div
      · simp [hi]
      · simp [hi, hv, hframe.rem hi]
  · rw [herr] at hbody
    exact ⟨c, v, exec_of_body_error hbody, id, id⟩

theorem exec_setCmp {i : Instr} {s t : State} (c : Bool) (hread : ¬ ReadsCmp i s) (h : exec i s = .next t) :
    ∃ c', exec i (s.setCmp c) = .next (t.setCmp c') := by
  obtain ⟨c', v', hexec, -, hv⟩ := exec_setFlags (c := c) s.rem (fun hr => absurd hr hread) h
  obtain rfl := hv rfl
  exact ⟨c', hexec⟩

theorem exec_setRem {i : Instr} {s t : State} (v : Word) (h : exec i s = .next t) :
    ∃ v', exec i (s.setRem v) = .next (t.setRem v') := by
  obtain ⟨c', v', hexec, hc, -⟩ := exec_setFlags v (fun _ => rfl) h
  obtain rfl := hc rfl
  exact ⟨v', hexec⟩

/-- A comparison's pseudocode is the same for every value of `cmp`, which it overwrites (R27, R139). -/
theorem body_setCmp_of_isComparison {i : Instr} (hi : Instr.isComparison i = true) (s : State) (c : Bool) :
    Instr.body i (s.setCmp c) = Instr.body i s := by
  cases i with
  | eq | notEq | greater | less | greaterEq | lessEq => rfl
  | load | add | sub | mul | div | jump | jumpF | jumpB | jumpEq | jumpNeq | halt | bad => cases hi

/-- Settles O39: a comparison that records no fault has completed, and any other instruction hands `cmp` on. -/
theorem compareFlagWritersAndReaders : Obligations.CompareFlagWritersAndReaders := by
  intro i s t h
  refine ⟨(exec_frame h).cmp, fun hi _ ht c => ?_, fun hread c => ?_⟩
  · rcases exec_cases h with ⟨hok, -⟩ | ⟨e, -, rfl⟩
    · exact exec_of_body_ok ((body_setCmp_of_isComparison hi s c).trans hok)
    · cases ht
  · obtain ⟨c', hexec⟩ := exec_setCmp c hread h
    exact ⟨_, hexec, rfl⟩

/-- Only a `Div` that completes writes `rem` (R28). -/
theorem exec_rem_ne {i : Instr} {s t : State} (h : exec i s = .next t) (hne : t.rem ≠ s.rem) :
    i.opId = .assigned .div ∧ t.fault = s.fault ∧ t.status = s.status := by
  have hdiv : i.opId = .assigned .div := by
    by_contra hi
    exact hne ((exec_frame h).rem hi)
  rcases exec_cases h with ⟨-, ht⟩ | ⟨e, -, rfl⟩
  · have hhalt : i ≠ .halt := by
      rintro rfl
      cases hdiv
    exact ⟨hdiv, ht.fault, by rw [ht.status, if_neg hhalt]⟩
  · exact absurd rfl hne

end Sys2Proof.Machine

/-! PROOFS. What a step can do (R95), and that it keeps the invariants of R35. -/

namespace Sys2Proof.Machine

/-! ## The fetch. -/

theorem State.active_iff (s : State) : s.active = true ↔ s.status = .running ∧ s.pc.toNat < s.len := by
  simp [State.active]

theorem State.active_eq_false_of_status {s : State} (h : s.status ≠ .running) : s.active = false := by
  simp [State.active, h]

/-- In canonical form the fetch meets no hole at any place of an instruction (R52, R59). -/
theorem State.operandByte_of_wf {s : State} (h : s.code.wf) (fill : Byte) (k : Nat) : ∃ b, s.operandByte fill k = some b := by
  unfold State.operandByte
  split
  · exact ⟨fill, rfl⟩
  · next hlt => exact Memory.read_lt h (Nat.lt_of_not_le hlt)

theorem State.instrAt_of_wf {s : State} (h : s.code.wf) (fill : Byte) (hpc : s.pc.toNat < s.len) :
    ∃ i, s.instrAt fill = some i := by
  obtain ⟨b0, h0⟩ := Memory.read_lt h hpc
  obtain ⟨b1, h1⟩ := State.operandByte_of_wf h fill 1
  obtain ⟨b2, h2⟩ := State.operandByte_of_wf h fill 2
  obtain ⟨b3, h3⟩ := State.operandByte_of_wf h fill 3
  exact ⟨_, by rw [State.instrAt, h0, h1, h2, h3]⟩

/-- The instruction fetched is what the byte at the program counter, and three more, decode to. -/
theorem State.decode4_of_instrAt {s : State} {fill : Byte} {i : Instr} (h : s.instrAt fill = some i) :
    ∃ b0 b1 b2 b3, s.code.read s.pc.toNat = some b0 ∧ i = decode4 s.params.opmap b0 b1 b2 b3 := by
  unfold State.instrAt at h
  split at h
  · next b0 b1 b2 b3 h0 h1 h2 h3 => exact ⟨b0, b1, b2, b3, h0, (Option.some.inj h).symm⟩
  · cases h

/-- The opcode byte of what a byte decodes to is that byte (R76, R77). -/
theorem b0_decode4 {m : List Opcode} (h : OpMapLegal m) (b0 b1 b2 b3 : Byte) : (decode4 m b0 b1 b2 b3).b0 m = b0 := by
  unfold decode4
  cases hop : decodeByte m b0 with
  | bad => rfl
  | assigned op =>
    rw [← h.opcodeByte_of_decodeByte hop]
    cases op <;> rfl

/-- The opcode byte of the instruction fetched is the byte listed at the program counter (R95, R173). -/
theorem State.read_pc_of_instrAt {s : State} (hm : OpMapLegal s.params.opmap) {fill : Byte} {i : Instr}
    (h : s.instrAt fill = some i) : s.code.read s.pc.toNat = some (i.b0 s.params.opmap) := by
  obtain ⟨b0, b1, b2, b3, hread, rfl⟩ := State.decode4_of_instrAt h
  rw [hread, b0_decode4 hm]

/-! ## The step. -/

theorem step_of_not_active {s : State} (h : s.active = false) : step s = .next s := by
  simp [step, State.fetch, State.fetchWith, h]

theorem step_of_instrAt {s : State} {i : Instr} (h : s.active = true) (hi : s.instrAt 0 = some i) : step s = exec i s := by
  simp only [step, State.fetch, State.fetchWith, h, if_true, hi]

/-- What a step that answers has done (R95). -/
theorem step_cases {s t : State} (h : step s = .next t) :
    (s.active = false ∧ t = s) ∨ (s.active = true ∧ ∃ i, s.instrAt 0 = some i ∧ exec i s = .next t) := by
  cases hactive : s.active with
  | false => exact .inl ⟨rfl, by simpa [step_of_not_active hactive] using h.symm⟩
  | true =>
    cases hi : s.instrAt 0 with
    | none => simp only [step, State.fetch, State.fetchWith, hactive, if_true, hi, reduceCtorEq] at h
    | some i => exact .inr ⟨rfl, i, rfl, step_of_instrAt hactive hi ▸ h⟩

/-- On a buffer in canonical form a step answers a next state (R96). -/
theorem step_answers {s : State} (h : s.code.wf) : ∃ t, step s = .next t := by
  cases hactive : s.active with
  | false => exact ⟨s, step_of_not_active hactive⟩
  | true =>
    obtain ⟨i, hi⟩ := State.instrAt_of_wf h 0 ((State.active_iff s).mp hactive).2
    rw [step_of_instrAt hactive hi]
    exact exec_answers i s

/-- No step writes the code buffer or the parameters (R51, R59). -/
theorem step_code_params {s t : State} (h : step s = .next t) : t.code = s.code ∧ t.params = s.params := by
  rcases step_cases h with ⟨-, rfl⟩ | ⟨-, i, -, hexec⟩
  · exact ⟨rfl, rfl⟩
  · exact ⟨(exec_frame hexec).code, (exec_frame hexec).params⟩

theorem step_eq_of_not_running {s t : State} (h : step s = .next t) (hs : s.status ≠ .running) : t = s := by
  rw [step_of_not_active (State.active_eq_false_of_status hs)] at h
  exact (Host.Outcome.next.inj h).symm

/-- Settles O14: a step writes neither the buffer nor the parameters, and executes nothing unless Running. -/
theorem stepKeepsParametersAndLatches : Obligations.StepKeepsParametersAndLatches := by
  intro s t h
  obtain ⟨hcode, hparams⟩ := step_code_params h
  exact ⟨hparams, congrArg List.length hcode, step_eq_of_not_running h⟩

/-! ## The invariants. -/

/-- Outside Faulted, a state that meets the invariants has no fault recorded (R31, R35). -/
theorem State.Inv.fault_eq_none {s : State} (h : s.Inv) (hs : s.status ≠ .faulted) : s.fault = none := by
  by_contra hf
  exact hs (h.latch.mpr hf)

theorem State.Inv.exists_fault {s : State} (h : s.Inv) (hs : s.status = .faulted) : ∃ r, s.fault = some r :=
  Option.ne_none_iff_exists'.mp (h.latch.mp hs)

/-- An instruction keeps the fault latch and `status` in step: a fault entry writes both, and a completion of a state without
a fault leaves it without one (R35, R178). -/
theorem exec_latch {i : Instr} {s t : State} (hs : s.status ≠ .faulted) (hf : s.fault = none) (h : exec i s = .next t) :
    t.status = .faulted ↔ t.fault ≠ none := by
  rcases exec_cases h with ⟨-, ht⟩ | ⟨e, -, rfl⟩
  · have hstatus : t.status ≠ .faulted := by
      rw [ht.status]
      split
      · nofun
      · exact hs
    simp [hstatus, ht.fault, hf]
  · simp

/-- Settles O11: buffer and parameters stay, and an instruction, executed only where Running, keeps the latches in step. -/
theorem stepKeepsInvariants : Obligations.StepKeepsInvariants := by
  intro s t hs h
  obtain ⟨hcode, hparams⟩ := step_code_params h
  refine ⟨hparams ▸ hs.params, hcode ▸ hs.code, ?_, ?_⟩
  · simpa [State.len, hcode, hparams] using hs.cap
  · rcases step_cases h with ⟨-, rfl⟩ | ⟨hactive, i, -, hexec⟩
    · exact hs.latch
    · have hrun : s.status ≠ .faulted := by simp [((State.active_iff s).mp hactive).1]
      exact exec_latch hrun (hs.fault_eq_none hrun) hexec

/-- A program counter at LEN is not cut to 32 bits: LEN is at most `CODE_CAP`, which is below 2^32 (R8, R35). -/
theorem State.Inv.len_ofNat {s : State} (h : s.Inv) : (BitVec.ofNat 32 s.len).toNat = s.len := by
  have hcap := h.cap
  obtain ⟨-, hmax, -⟩ := h.params
  simp only [maxPc] at hmax
  simp only [BitVec.toNat_ofNat]
  omega

/-- Settles O37: a step that records a fault has executed the instruction at the program counter, whose pseudocode raised. -/
theorem stepRecordsFetchedOpbyte : Obligations.StepRecordsFetchedOpbyte := by
  intro s t r hs hnone h hr
  rcases step_cases h with ⟨-, rfl⟩ | ⟨hactive, i, hi, hexec⟩
  · simp [hnone] at hr
  rcases exec_cases hexec with ⟨-, ht⟩ | ⟨e, herr, rfl⟩
  · simp [ht.fault, hnone] at hr
  obtain rfl : _ = r := Option.some.inj hr
  refine ⟨rfl, State.read_pc_of_instrAt hs.params.2.2 hi, fun hcause => ?_⟩
  rcases bodyAnswer i s with ⟨e', k, hraise, hbody⟩ | ⟨e', hother, -, hbody⟩ | ⟨u, -, -, hbody⟩
  · obtain rfl : e' = e := Except.error.inj (hbody.symm.trans herr)
    rw [takeFault_pc, hraise.pc_eq_len ((State.active_iff s).mp hactive).2 hcause, hs.len_ofNat]
  · obtain rfl : e' = e := Except.error.inj (hbody.symm.trans herr)
    exact absurd hcause hother
  · cases hbody.symm.trans herr

theorem hostReset_inv {s : State} (h : s.params.Legal) : (hostReset s).Inv :=
  ⟨h, Memory.empty_wf, Nat.zero_le _, by simp⟩

/-- Settles O12: `State.reset` is the host's reset of itself, and its parameters are legal. -/
theorem resetMeetsInvariants : Obligations.ResetMeetsInvariants :=
  ⟨hostReset_inv (s := State.reset) (by decide), fun _ => hostReset_inv⟩

end Sys2Proof.Machine

/-! PROOFS. What the host's transactions can do (R36 to R41): an inversion lemma for `tick` and `run`, what both keep, and that
a run ends in an outcome that repeats. -/

namespace Sys2Proof.Machine

/-! ## `tick` and `run`. -/

/-- A tick answers where its step and its outcome do (R95). -/
theorem tick_eq_next_iff {s t : State} {o : TickOutcome} :
    tick s = .next (t, o) ↔ step s = .next t ∧ tickOutcome s t = .next o := by
  constructor
  · intro h
    rw [tick] at h
    cases hstep : step s with
    | fault f => simp [hstep] at h
    | refused r => simp [hstep] at h
    | next u =>
      cases hout : tickOutcome s u with
      | fault f => simp [hstep, hout] at h
      | refused r => simp [hstep, hout] at h
      | next p =>
        obtain ⟨rfl, rfl⟩ : u = t ∧ p = o := by simpa [hstep, hout] using h
        exact ⟨rfl, hout⟩
  · rintro ⟨hstep, hout⟩
    simp only [tick, hstep, hout]

/-- A run that answers with fuel has ticked once, and either goes on or ends in that tick's outcome (R40). -/
theorem run_succ_eq_next_iff {n : Nat} {s t : State} {o : Option TickOutcome} :
    run (n + 1) s = .next (t, o) ↔
      (∃ u, tick s = .next (u, .continue) ∧ run n u = .next (t, o)) ∨
      (∃ p, p ≠ .continue ∧ o = some p ∧ tick s = .next (t, p)) := by
  rw [run]
  cases tick s with
  | fault f => simp
  | refused r => simp
  | next x =>
    obtain ⟨u, p⟩ := x
    by_cases hp : p = .continue
    · subst hp
      simp
    · simp [hp, and_comm, eq_comm (a := o)]

/-- What every step keeps, every run keeps. -/
theorem run_preserves {P : State → Prop} (hstep : ∀ {s t}, P s → step s = .next t → P t) {n : Nat} {s t : State}
    {o : Option TickOutcome} (hs : P s) (h : run n s = .next (t, o)) : P t := by
  induction n generalizing s with
  | zero =>
    obtain ⟨rfl, -⟩ : s = t ∧ none = o := by simpa [run] using h
    exact hs
  | succ n ih =>
    rcases run_succ_eq_next_iff.mp h with ⟨u, htick, hrun⟩ | ⟨p, -, -, htick⟩
    · exact ih (hstep hs (tick_eq_next_iff.mp htick).1) hrun
    · exact hstep hs (tick_eq_next_iff.mp htick).1

/-- No run writes the code buffer or the parameters. -/
theorem run_code_params {n : Nat} {s t : State} {o : Option TickOutcome} (h : run n s = .next (t, o)) :
    t.code = s.code ∧ t.params = s.params := by
  refine run_preserves (P := fun u => u.code = s.code ∧ u.params = s.params) ?_ ⟨rfl, rfl⟩ h
  rintro u v ⟨hcode, hparams⟩ hstep
  obtain ⟨hcode', hparams'⟩ := step_code_params hstep
  exact ⟨hcode'.trans hcode, hparams'.trans hparams⟩

/-! ## The invariants over the transactions. -/

/-- A tick finds a record to report wherever the latches are in step (R31, R35). -/
theorem tickOutcome_answers (s : State) {t : State} (h : t.Inv) : ∃ o, tickOutcome s t = .next o := by
  unfold tickOutcome
  cases hstatus : t.status with
  | running => exact ⟨_, rfl⟩
  | halted => exact ⟨_, rfl⟩
  | faulted =>
    obtain ⟨r, hr⟩ := h.exists_fault hstatus
    exact ⟨.fault r, by rw [hr]⟩

theorem tick_answers {s : State} (h : s.Inv) : ∃ t o, tick s = .next (t, o) ∧ t.Inv := by
  obtain ⟨t, hstep⟩ := step_answers h.code
  have ht := stepKeepsInvariants s t h hstep
  obtain ⟨o, hout⟩ := tickOutcome_answers s ht
  exact ⟨t, o, tick_eq_next_iff.mpr ⟨hstep, hout⟩, ht⟩

theorem run_answers (n : Nat) {s : State} (h : s.Inv) : ∃ t o, run n s = .next (t, o) ∧ t.Inv := by
  induction n generalizing s with
  | zero => exact ⟨s, none, rfl, h⟩
  | succ n ih =>
    obtain ⟨u, p, htick, hu⟩ := tick_answers h
    by_cases hp : p = .continue
    · subst hp
      obtain ⟨t, o, hrun, ht⟩ := ih hu
      exact ⟨t, o, run_succ_eq_next_iff.mpr (.inl ⟨u, htick, hrun⟩), ht⟩
    · exact ⟨u, some p, run_succ_eq_next_iff.mpr (.inr ⟨p, hp, rfl, htick⟩), hu⟩

theorem addByte_of_lt {s : State} (b : Byte) (h : s.len < s.params.codeCap) :
    addByte b s = ({ s with code := s.code.append b }, .ok) := by
  simp [addByte, h]

theorem addByte_of_le {s : State} (b : Byte) (h : s.params.codeCap ≤ s.len) : addByte b s = (s, .full) := by
  simp [addByte, Nat.not_lt.mpr h]

/-- `add_byte` keeps the canonical form, and appends only below the capacity (R32, R38). -/
theorem addByte_inv {s : State} (b : Byte) (h : s.Inv) : (addByte b s).1.Inv := by
  rcases Nat.lt_or_ge s.len s.params.codeCap with hlt | hge
  · rw [addByte_of_lt b hlt]
    exact ⟨h.params, Memory.append_wf b h.code, by simpa [State.len] using hlt, h.latch⟩
  · rwa [addByte_of_le b hge]

/-- Settles O13: each transaction answers and keeps the invariants; `run` does by induction on its fuel. -/
theorem transactionsKeepInvariants : Obligations.TransactionsKeepInvariants := by
  intro x s h
  cases x with
  | reset => exact ⟨_, _, rfl, hostReset_inv h.params⟩
  | addByte b => exact ⟨_, _, rfl, addByte_inv b h⟩
  | tick =>
    obtain ⟨t, o, htick, ht⟩ := tick_answers h
    exact ⟨t, .ticked o, by simp [transact, htick], ht⟩
  | run n =>
    obtain ⟨t, o, hrun, ht⟩ := run_answers n h
    exact ⟨t, .ran o, by simp [transact, hrun], ht⟩
  | inspect => exact ⟨_, _, rfl, h⟩

/-! ## What each transaction answers. -/

theorem transact_tick_eq_next_iff {s t : State} {r : Response} :
    transact .tick s = .next (t, r) ↔ ∃ o, tick s = .next (t, o) ∧ r = .ticked o := by
  simp only [transact]
  cases tick s with
  | next x => grind
  | fault f => simp
  | refused r => simp

theorem transact_run_eq_next_iff {n : Nat} {s t : State} {r : Response} :
    transact (.run n) s = .next (t, r) ↔ ∃ o, run n s = .next (t, o) ∧ r = .ran o := by
  simp only [transact]
  cases run n s with
  | next x => grind
  | fault f => simp
  | refused r => simp

/-- Settles O45: the two branches of `add_byte`, with what a read gives after an append. -/
theorem addByteResult : Obligations.AddByteResult := by
  intro s b hwf
  refine ⟨fun hlt => ⟨_, addByte_of_lt b hlt, rfl, ?_, ?_, ?_⟩, addByte_of_le b⟩
  · exact Memory.append_length s.code b
  · exact Memory.append_read_last hwf b
  · exact fun a ha => Memory.append_read hwf b ha

/-- Settles O46: each field of the reset state, whatever the state before. -/
theorem hostResetValues : Obligations.HostResetValues := by
  rintro s t r ⟨⟩
  exact ⟨fun k => by simp [State.readReg], rfl, rfl, rfl, rfl, rfl, rfl, rfl, rfl⟩

/-- Settles O51: in canonical form the bytes shown are what a read gives at each offset. -/
theorem inspectShowsAllState : Obligations.InspectShowsAllState := by
  intro s hwf
  exact ⟨inspect s, rfl, rfl, rfl, rfl, rfl, rfl, rfl, rfl, Memory.bytes_length s.code,
    fun a => (Memory.read_eq hwf a).symm⟩

/-- A transaction that leaves the buffer and the parameters as they were meets all that R32 asks. -/
theorem codeBuffer_of_unchanged {x : Transaction} {s t : State} (hx : x ≠ .reset)
    (h : t.code = s.code ∧ t.params = s.params) :
    (x = .reset → t.code = []) ∧
    (x ≠ .reset → t.code = s.code ∨ ∃ b, x = .addByte b ∧ t.code = s.code ++ [(s.len, b)]) ∧
    (s.len ≤ s.params.codeCap → t.len ≤ t.params.codeCap) := by
  obtain ⟨hcode, hparams⟩ := h
  exact ⟨fun hr => absurd hr hx, fun _ => .inl hcode, by simp [State.len, hcode, hparams]⟩

/-- Settles O42: `reset` empties the buffer, `add_byte` below the capacity appends, everything else leaves it. -/
theorem codeBufferIsAppendOnly : Obligations.CodeBufferIsAppendOnly := by
  intro x s t r h
  cases x with
  | reset =>
    obtain ⟨⟩ := h
    exact ⟨fun _ => rfl, fun hx => absurd rfl hx, fun _ => Nat.zero_le _⟩
  | addByte b =>
    obtain ⟨⟩ := h
    rcases Nat.lt_or_ge s.len s.params.codeCap with hlt | hge
    · rw [addByte_of_lt b hlt]
      exact ⟨nofun, fun _ => .inr ⟨b, rfl, rfl⟩, fun _ => by simpa [State.len] using hlt⟩
    · rw [addByte_of_le b hge]
      exact codeBuffer_of_unchanged nofun ⟨rfl, rfl⟩
  | tick =>
    obtain ⟨o, htick, -⟩ := transact_tick_eq_next_iff.mp h
    exact codeBuffer_of_unchanged nofun (step_code_params (tick_eq_next_iff.mp htick).1)
  | run n =>
    obtain ⟨o, hrun, -⟩ := transact_run_eq_next_iff.mp h
    exact codeBuffer_of_unchanged nofun (run_code_params hrun)
  | inspect =>
    obtain ⟨⟩ := h
    exact codeBuffer_of_unchanged nofun ⟨rfl, rfl⟩

/-! ## Terminal outcomes. -/

/-- Where the tick ended in Halted or Faulted, its outcome does not depend on where it began. -/
theorem tickOutcome_of_not_running (s s' : State) {t : State} (h : t.status ≠ .running) :
    tickOutcome s t = tickOutcome s' t := by
  unfold tickOutcome
  cases hstatus : t.status with
  | running => exact absurd hstatus h
  | halted => rfl
  | faulted => rfl

/-- A tick that stays Running with an outcome other than `Continue` began at the end of the buffer (R95). -/
theorem len_le_pc_of_tickOutcome {s t : State} {o : TickOutcome} (h : tickOutcome s t = .next o) (ho : o ≠ .continue)
    (ht : t.status = .running) : s.len ≤ s.pc.toNat := by
  by_contra hlt
  simp only [tickOutcome, ht, Nat.lt_of_not_le hlt, if_true, Host.Outcome.next.injEq] at h
  exact ho h.symm

/-- After an outcome other than `Continue`, a further tick repeats it and changes nothing (R181). -/
theorem tick_repeats {s t : State} {o : TickOutcome} (h : tick s = .next (t, o)) (ho : o ≠ .continue) :
    tick t = .next (t, o) := by
  obtain ⟨hstep, hout⟩ := tick_eq_next_iff.mp h
  by_cases ht : t.status = .running
  · have hpc := len_le_pc_of_tickOutcome hout ho ht
    rcases step_cases hstep with ⟨-, rfl⟩ | ⟨hactive, -⟩
    · exact h
    · exact absurd ((State.active_iff s).mp hactive).2 (Nat.not_lt.mpr hpc)
  · refine tick_eq_next_iff.mpr ⟨step_of_not_active (State.active_eq_false_of_status ht), ?_⟩
    rwa [tickOutcome_of_not_running t s ht]

/-- Settles O50: by induction on the fuel, a run that ends has ended in the outcome of its last tick. -/
theorem runEndsInTerminalOutcome : Obligations.RunEndsInTerminalOutcome := by
  intro n s t o h
  induction n generalizing s with
  | zero => simp [run] at h
  | succ n ih =>
    rcases run_succ_eq_next_iff.mp h with ⟨u, htick, hrun⟩ | ⟨p, hp, hsome, htick⟩
    · obtain ⟨ho, hmore, hrepeat⟩ := ih u hrun
      refine ⟨ho, fun k => ?_, hrepeat⟩
      rw [Nat.succ_add]
      exact run_succ_eq_next_iff.mpr (.inl ⟨u, htick, hmore k⟩)
    · obtain rfl : o = p := Option.some.inj hsome
      refine ⟨hp, fun k => ?_, tick_repeats htick hp⟩
      rw [Nat.succ_add]
      exact run_succ_eq_next_iff.mpr (.inr ⟨o, hp, rfl, htick⟩)

/-! ## The remainder register. -/

/-- A step, a tick and a run take `rem` as it comes: they answer the same for every value of it (R28). -/
theorem step_setRem {s t : State} (v : Word) (h : step s = .next t) : ∃ v', step (s.setRem v) = .next (t.setRem v') := by
  rcases step_cases h with ⟨hactive, rfl⟩ | ⟨hactive, i, hi, hexec⟩
  · exact ⟨v, step_of_not_active hactive⟩
  · obtain ⟨v', hexec'⟩ := exec_setRem v hexec
    exact ⟨v', (step_of_instrAt (s := s.setRem v) hactive hi).trans hexec'⟩

theorem tick_setRem {s t : State} {o : TickOutcome} (v : Word) (h : tick s = .next (t, o)) :
    ∃ v', tick (s.setRem v) = .next (t.setRem v', o) := by
  obtain ⟨hstep, hout⟩ := tick_eq_next_iff.mp h
  obtain ⟨v', hstep'⟩ := step_setRem v hstep
  exact ⟨v', tick_eq_next_iff.mpr ⟨hstep', hout⟩⟩

theorem run_setRem {n : Nat} {s t : State} {o : Option TickOutcome} (v : Word) (h : run n s = .next (t, o)) :
    ∃ v', run n (s.setRem v) = .next (t.setRem v', o) := by
  induction n generalizing s v with
  | zero =>
    obtain ⟨rfl, rfl⟩ : s = t ∧ none = o := by simpa [run] using h
    exact ⟨v, rfl⟩
  | succ n ih =>
    rcases run_succ_eq_next_iff.mp h with ⟨u, htick, hrun⟩ | ⟨p, hp, rfl, htick⟩
    · obtain ⟨w, htick'⟩ := tick_setRem v htick
      obtain ⟨v', hrun'⟩ := ih w hrun
      exact ⟨v', run_succ_eq_next_iff.mpr (.inl ⟨_, htick', hrun'⟩)⟩
    · obtain ⟨v', htick'⟩ := tick_setRem v htick
      exact ⟨v', run_succ_eq_next_iff.mpr (.inr ⟨p, hp, rfl, htick'⟩)⟩

theorem addByte_setRem (b : Byte) (s : State) (v : Word) :
    addByte b (s.setRem v) = ((addByte b s).1.setRem v, (addByte b s).2) := by
  rcases Nat.lt_or_ge s.len s.params.codeCap with hlt | hge
  · rw [addByte_of_lt b hlt, addByte_of_lt b (by simpa using hlt)]
    rfl
  · rw [addByte_of_le b hge, addByte_of_le b (by simpa using hge)]

/-- Every transaction but `inspect` answers the same for every value of `rem` (R28). -/
theorem transact_setRem {x : Transaction} {s t : State} {r : Response} (hx : x ≠ .inspect) (v : Word)
    (h : transact x s = .next (t, r)) : ∃ v', transact x (s.setRem v) = .next (t.setRem v', r) := by
  cases x with
  | reset =>
    obtain ⟨⟩ := h
    exact ⟨0, rfl⟩
  | addByte b =>
    obtain ⟨⟩ := h
    exact ⟨v, by rw [transact, addByte_setRem]⟩
  | tick =>
    obtain ⟨o, htick, rfl⟩ := transact_tick_eq_next_iff.mp h
    obtain ⟨v', htick'⟩ := tick_setRem v htick
    exact ⟨v', transact_tick_eq_next_iff.mpr ⟨o, htick', rfl⟩⟩
  | run n =>
    obtain ⟨o, hrun, rfl⟩ := transact_run_eq_next_iff.mp h
    obtain ⟨v', hrun'⟩ := run_setRem v hrun
    exact ⟨v', transact_run_eq_next_iff.mpr ⟨o, hrun', rfl⟩⟩
  | inspect => exact absurd rfl hx

/-- Settles O40: instructions and transactions hand `rem` on, and `inspect` copies it. -/
theorem remainderWritersAndReaders : Obligations.RemainderWritersAndReaders := by
  refine ⟨fun i s t h => ⟨exec_rem_ne h, fun v => ?_⟩, fun x s t r hx h v => ?_, fun s => ⟨_, rfl, rfl⟩⟩
  · obtain ⟨v', hexec⟩ := exec_setRem v h
    exact ⟨_, hexec, rfl⟩
  · obtain ⟨v', htransact⟩ := transact_setRem hx v h
    exact ⟨_, htransact, rfl⟩

end Sys2Proof.Machine

/-! PROOFS. The decoder's errors (R58, R79), and the buffer's end: a missing operand byte raises `FetchPastEnd`, and what stands
in the instruction for bytes that are not there never matters (R53, R58, R59, R204). -/

namespace Sys2Proof

/-- A byte sequence with an opcode byte is rejected exactly when it is shorter than that byte's identity takes (R58, R79). -/
theorem decode_cons_eq_error_iff {m : List Opcode} {b : Byte} {rest : List Byte} {e : DecodeError} :
    decode m (b :: rest) = .error e ↔
      (b :: rest).length < (decodeByte m b).length ∧ e = .truncated (decodeByte m b) (b :: rest) := by
  have hlt : rest.length < (decodeByte m b).length - 1 ↔ (b :: rest).length < (decodeByte m b).length := by
    rw [List.length_cons]
    omega
  simp only [decode, hlt]
  split
  · next h => simp only [h, true_and, Except.error.injEq, eq_comm]
  · next h => simp only [h, false_and, reduceCtorEq]

/-- Settles O4: no bytes, and an opcode byte with too few after it, are the two cases of a byte sequence. -/
theorem decodeRejectsOnlyTruncated : Obligations.DecodeRejectsOnlyTruncated := by
  intro m bs e
  cases bs with
  | nil => simp [decode, eq_comm]
  | cons b rest => simp [decode_cons_eq_error_iff]

theorem OpId.length_le_four (op : OpId) : op.length ≤ 4 := by
  cases op with
  | bad => decide
  | assigned op => cases op <;> decide

/-! ## Instructions assembled from bytes. -/

/-- An instruction is made of as many bytes as its identity says, and of no others (R79). -/
theorem assemble4_congr {op : OpId} {b c : Nat → Byte} (h : ∀ k < op.length, b k = c k) :
    assemble4 op (b 0) (b 1) (b 2) (b 3) = assemble4 op (c 0) (c 1) (c 2) (c 3) := by
  cases op with
  | bad => simp [assemble4, h 0 (by decide)]
  | assigned op =>
    cases op with
    | load | add | sub | mul | div | eq | notEq | greater | less | greaterEq | lessEq =>
      simp [assemble4, h 1 (by decide), h 2 (by decide), h 3 (by decide)]
    | jump | jumpF | jumpB | jumpEq | jumpNeq => simp [assemble4, h 1 (by decide)]
    | halt => rfl

@[simp] theorem opId_assemble4 (op : OpId) (b0 b1 b2 b3 : Byte) : (assemble4 op b0 b1 b2 b3).opId = op := by
  cases op with
  | bad => rfl
  | assigned op => cases op <;> rfl

/-- The opcode byte of an instruction does not depend on its operand bytes (R10). -/
theorem b0_assemble4_congr (m : List Opcode) (op : OpId) (b0 b1 b2 b3 c1 c2 c3 : Byte) :
    (assemble4 op b0 b1 b2 b3).b0 m = (assemble4 op b0 c1 c2 c3).b0 m := by
  cases op with
  | bad => rfl
  | assigned op => cases op <;> rfl

/-- The index bytes of an instruction are as many of its first operand bytes as its format checks (R72 to R75). -/
theorem regBytes_assemble4 (op : OpId) :
    ∃ n, ∀ b0 b1 b2 b3, (assemble4 op b0 b1 b2 b3).regBytes = [b1, b2, b3].take n := by
  cases op with
  | bad => exact ⟨0, fun _ _ _ _ => rfl⟩
  | assigned op =>
    cases op with
    | add | sub | mul | div => exact ⟨3, fun _ _ _ _ => rfl⟩
    | eq | notEq | greater | less | greaterEq | lessEq => exact ⟨2, fun _ _ _ _ => rfl⟩
    | load | jump | jumpF | jumpB | jumpEq | jumpNeq => exact ⟨1, fun _ _ _ _ => rfl⟩
    | halt => exact ⟨0, fun _ _ _ _ => rfl⟩

/-- The index byte at place `j`, where there is one, is the operand byte `j + 1`. -/
theorem regBytes_assemble4_congr (op : OpId) {b c : Nat → Byte} {j : Nat} (h : b (j + 1) = c (j + 1)) :
    (assemble4 op (b 0) (b 1) (b 2) (b 3)).regBytes[j]? = (assemble4 op (c 0) (c 1) (c 2) (c 3)).regBytes[j]? := by
  obtain ⟨n, hn⟩ := regBytes_assemble4 op
  have hget : [b 1, b 2, b 3][j]? = [c 1, c 2, c 3][j]? := by
    match j, h with
    | 0, h | 1, h | 2, h => exact congrArg some h
    | _ + 3, _ => rfl
  rw [hn, hn, List.getElem?_take, List.getElem?_take, hget]

/-- The bytes of a well-formed instruction's encoding decode to it, whatever follows them (R70 to R77). -/
theorem decode4_encode_append {m : List Opcode} (hm : OpMapLegal m) {i : Instr} (hi : i.wellFormed = true)
    {bs rest : List Byte} (hbs : bs = encode m i ++ rest) :
    decode4 m (bs.getD 0 0) (bs.getD 1 0) (bs.getD 2 0) (bs.getD 3 0) = i := by
  subst hbs
  cases i with
  | load r imm => simp [encode, decode4, hm.decodeByte_opcodeByte, assemble4, immOf_hi_lo]
  | bad o => simp [encode, decode4, (hm.decodeByte_bad_iff o).mpr hi, assemble4]
  | add | sub | mul | div | jump | jumpF | jumpB | eq | notEq | greater | less | greaterEq | lessEq | jumpEq | jumpNeq
  | halt => simp [encode, decode4, hm.decodeByte_opcodeByte, assemble4]

end Sys2Proof

namespace Sys2Proof.Machine

/-! ## A missing operand byte. -/

/-- An instruction that the buffer cuts off raises in fetching its operands, unless it fetches none (R58, R151). -/
theorem body_fetchRaise_of_not_holds {i : Instr} {s : State} (hpc : s.pc.toNat < s.len) (hend : ¬ s.holds i.opId.length)
    (hpolicy : ¬ JumpNeqIsBad i s) :
    ∃ e k, FetchRaise i.regBytes i.opId.length s e k ∧ Instr.body i s = .error e := by
  cases i with
  | load r imm =>
    obtain ⟨e, k, hraise, h⟩ := (formRI_cases r s).resolve_right fun h => hend h.1
    exact ⟨e, k, hraise, by rw [Instr.body, h]; rfl⟩
  | add a b d | sub a b d | mul a b d =>
    rw [Instr.body]
    exact (arith_cases _ a b d s).resolve_right fun h => hend h.1
  | div a b d => exact (divide_cases a b d s).resolve_right fun h => hend h.1
  | jump r =>
    rw [Instr.body]
    exact (jumpTo_cases _ r s).resolve_right fun h => hend h.1
  | jumpF r | jumpB r =>
    rw [Instr.body]
    exact (jumpBy_cases _ r s).resolve_right fun h => hend h.1
  | eq a b pad | notEq a b pad | greater a b pad | less a b pad | greaterEq a b pad | lessEq a b pad =>
    rw [Instr.body]
    exact (compare_cases _ a b s).resolve_right fun h => hend h.1
  | jumpEq r => exact (jumpIf_cases _ r s).resolve_right fun h => hend h.1
  | jumpNeq r =>
    cases hp : s.params.jumpNeq with
    | bad => exact absurd ⟨rfl, hp⟩ hpolicy
    | mirror =>
      rw [Instr.body, hp]
      exact (jumpIf_cases _ r s).resolve_right fun h => hend h.1
  | halt | bad o => exact absurd hpc hend

/-- The operand fetch raises at the first missing byte, where no index byte before it is 32 or more (R53, R176). -/
theorem FetchRaise.eq_pastEnd {regs : List Byte} {n j k : Nat} {s : State} {e : Raised} (hraise : FetchRaise regs n s e j)
    (hk : 1 ≤ k) (hend : s.pc.toNat + k = s.len)
    (hfirst : ∀ (l : Nat) (c : Byte), l + 1 < k → regs[l]? = some c → c.toNat < 32) :
    e = { cause := .fetchPastEnd, info := 0, pc := s.pc.toNat + k } := by
  obtain ⟨⟨hj, -⟩, hbefore, hhere⟩ := hraise
  have hjk : j ≤ k := by
    by_contra hlt
    have hthere := (hbefore k hk (by omega)).1
    omega
  obtain ⟨hpast, rfl⟩ | ⟨hthere, c, hc, hbad, -⟩ := hhere
  · obtain rfl : j = k := by omega
    rfl
  · have hnamed := hfirst (j - 1) c (by omega) hc
    omega

/-- Settles O34: the instruction is cut off, so its operand fetch raises, and it does so at the missing byte. -/
theorem fetchPastEndRaises : Obligations.FetchPastEndRaises := by
  intro i s k hk hlen hend hfirst hpolicy
  obtain ⟨e, j, hraise, hbody⟩ := body_fetchRaise_of_not_holds (by omega) (by simp only [State.holds]; omega) hpolicy
  obtain rfl := hraise.eq_pastEnd hk hend hfirst
  rw [exec_of_body_error hbody, takeFault_eq_afterFault rfl]

/-! ## The bytes that are not there. -/

/-- Of two operand fetches whose index bytes agree wherever they are in the buffer, neither raises later than the other. -/
theorem FetchRaise.place_le {regs regs' : List Byte} {n k k' : Nat} {s : State} {e e' : Raised}
    (h : FetchRaise regs n s e k) (h' : FetchRaise regs' n s e' k')
    (hregs : ∀ j, j + 1 < n → s.pc.toNat + (j + 1) < s.len → regs[j]? = regs'[j]?) : k ≤ k' := by
  obtain ⟨⟨hk', hn⟩, -, hhere⟩ := h'
  by_contra hlt
  obtain ⟨hthere, hnamed⟩ := h.before k' hk' (by omega)
  obtain ⟨hpast, -⟩ | ⟨-, c, hc, hbad, -⟩ := hhere
  · omega
  · rw [← hregs (k' - 1) (by omega) (by omega)] at hc
    exact absurd (hnamed c hc) (Nat.not_lt.mpr hbad)

/-- What the operand fetch raises depends only on the index bytes that are in the buffer (R53). -/
theorem FetchRaise.unique {regs regs' : List Byte} {n k k' : Nat} {s : State} {e e' : Raised}
    (h : FetchRaise regs n s e k) (h' : FetchRaise regs' n s e' k')
    (hregs : ∀ j, j + 1 < n → s.pc.toNat + (j + 1) < s.len → regs[j]? = regs'[j]?) : e = e' := by
  obtain rfl : k = k' := Nat.le_antisymm (h.place_le h' hregs) (h'.place_le h fun j hn hj => (hregs j hn hj).symm)
  obtain ⟨hk, hn⟩ := h.place
  obtain ⟨hpast, rfl⟩ | ⟨hthere, c, hc, -, rfl⟩ := h.here
  · obtain ⟨-, rfl⟩ | ⟨hthere, -⟩ := h'.here
    · rfl
    · omega
  · obtain ⟨hpast, -⟩ | ⟨-, c', hc', -, rfl⟩ := h'.here
    · omega
    · rw [hregs (k - 1) (by omega) (by omega), hc'] at hc
      obtain rfl := Option.some.inj hc
      rfl

/-- Under policy `bad` a `JumpNeq` raises before it fetches its operand byte (R151). -/
theorem body_of_jumpNeqIsBad {i : Instr} {s : State} (h : JumpNeqIsBad i s) :
    Instr.body i s = .error { cause := .invalidOpcode, info := s.opbyte .jumpNeq, pc := s.afterOpcode } := by
  obtain ⟨hop, hpolicy⟩ := h
  cases i with
  | jumpNeq r => rw [Instr.body, hpolicy]
  | load | add | sub | mul | div | jump | jumpF | jumpB | eq | notEq | greater | less | greaterEq | lessEq | jumpEq | halt
  | bad => cases hop

/-- The pseudocode of an instruction that the buffer cuts off raises the same whatever stands for the missing bytes: under
policy `bad` a `JumpNeq` fetches none, and any other operand fetch raises before it takes one. -/
theorem body_assemble4_congr {op : OpId} {s : State} {b c : Nat → Byte} (hpc : s.pc.toNat < s.len)
    (hend : ¬ s.holds op.length) (h : ∀ k < op.length, s.pc.toNat + k < s.len → b k = c k) :
    Instr.body (assemble4 op (b 0) (b 1) (b 2) (b 3)) s = Instr.body (assemble4 op (c 0) (c 1) (c 2) (c 3)) s := by
  have hbad (b0 b1 b2 b3 : Byte) : JumpNeqIsBad (assemble4 op b0 b1 b2 b3) s ↔
      op = .assigned .jumpNeq ∧ s.params.jumpNeq = .bad := by simp only [JumpNeqIsBad, opId_assemble4]
  by_cases hpolicy : op = .assigned .jumpNeq ∧ s.params.jumpNeq = .bad
  · rw [body_of_jumpNeqIsBad ((hbad ..).mpr hpolicy), body_of_jumpNeqIsBad ((hbad ..).mpr hpolicy)]
  · have hraises (b0 b1 b2 b3 : Byte) := body_fetchRaise_of_not_holds (i := assemble4 op b0 b1 b2 b3) hpc
      (by rwa [opId_assemble4]) (mt (hbad ..).mp hpolicy)
    simp only [opId_assemble4] at hraises
    obtain ⟨e, k, hraise, hbody⟩ := hraises (b 0) (b 1) (b 2) (b 3)
    obtain ⟨e', k', hraise', hbody'⟩ := hraises (c 0) (c 1) (c 2) (c 3)
    rw [hbody, hbody', hraise.unique hraise' fun j hn hj => regBytes_assemble4_congr op (h (j + 1) hn hj)]

/-- An instruction does the same whatever stands for its bytes that are not in the buffer (R53, R58). -/
theorem exec_decode4_congr {m : List Opcode} {s : State} {b c : Nat → Byte} (hpc : s.pc.toNat < s.len)
    (h : ∀ k < 4, s.pc.toNat + k < s.len → b k = c k) :
    exec (decode4 m (b 0) (b 1) (b 2) (b 3)) s = exec (decode4 m (c 0) (c 1) (c 2) (c 3)) s := by
  have h0 : b 0 = c 0 := h 0 (by decide) hpc
  simp only [decode4, ← congrArg (decodeByte m) h0]
  have hop : ∀ k < (decodeByte m (b 0)).length, s.pc.toNat + k < s.len → b k = c k :=
    fun k hk => h k (Nat.lt_of_lt_of_le hk (OpId.length_le_four _))
  by_cases hall : s.holds (decodeByte m (b 0)).length
  · rw [assemble4_congr fun k hk => hop k hk (Nat.lt_of_lt_of_le (Nat.add_lt_add_left hk _) hall)]
  · rw [exec_eq_perform, exec_eq_perform, body_assemble4_congr hpc hall hop, h0, b0_assemble4_congr]

/-! ## The fetch. -/

/-- The instruction fetched is decoded from four bytes, of which those below LEN are the ones listed from `pc` on (R95). -/
theorem State.bytes_of_instrAt {s : State} {fill : Byte} {i : Instr} (h : s.instrAt fill = some i) :
    ∃ b : Nat → Byte, i = decode4 s.params.opmap (b 0) (b 1) (b 2) (b 3) ∧
      ∀ k < 4, s.pc.toNat + k < s.len → s.code.read (s.pc.toNat + k) = some (b k) := by
  unfold State.instrAt at h
  split at h
  · next b0 b1 b2 b3 h0 h1 h2 h3 =>
    have hread {k : Nat} {b : Byte} (hb : s.operandByte fill k = some b) (hk : s.pc.toNat + k < s.len) :
        s.code.read (s.pc.toNat + k) = some b := by
      rwa [State.operandByte, if_neg (Nat.not_le.mpr hk)] at hb
    refine ⟨fun k => [b0, b1, b2, b3].getD k 0, (Option.some.inj h).symm, fun k hk hlt => ?_⟩
    match k, hk with
    | 0, _ => exact h0
    | 1, _ => exact hread h1 hlt
    | 2, _ => exact hread h2 hlt
    | 3, _ => exact hread h3 hlt
  · cases h

theorem State.fetchWith_eq_instr_iff {s : State} {fill : Byte} {i : Instr} :
    s.fetchWith fill = .instr i ↔ s.active = true ∧ s.instrAt fill = some i := by
  unfold State.fetchWith
  cases s.active <;> cases s.instrAt fill <;> simp

/-- Settles O7: the two fetches agree on every byte below LEN. -/
theorem missingBytesNeverMatter : Obligations.MissingBytesNeverMatter := by
  intro s f g i j hi hj
  obtain ⟨hactive, hi⟩ := State.fetchWith_eq_instr_iff.mp hi
  obtain ⟨-, hj⟩ := State.fetchWith_eq_instr_iff.mp hj
  have hpc := ((State.active_iff s).mp hactive).2
  obtain ⟨b, rfl, hb⟩ := State.bytes_of_instrAt hi
  obtain ⟨c, rfl, hc⟩ := State.bytes_of_instrAt hj
  exact exec_decode4_congr hpc fun k hk hlt => Option.some.inj ((hb k hk hlt).symm.trans (hc k hk hlt))

/-- Settles O9: in canonical form the fetch meets no hole, and a step keeps the buffer. -/
theorem everyOffsetFetchableNoneWritable : Obligations.EveryOffsetFetchableNoneWritable := by
  refine ⟨fun s hwf hrun hpc => ?_, fun s t h => (step_code_params h).1⟩
  obtain ⟨i, hi⟩ := State.instrAt_of_wf hwf 0 hpc
  exact ⟨i, State.fetchWith_eq_instr_iff.mpr ⟨(State.active_iff s).mpr ⟨hrun, hpc⟩, hi⟩⟩

/-- A step is `exec` of a well-formed instruction whenever the bytes from `pc` on and those of its encoding agree as far as
both go: the buffer may end within it, and bytes may follow it (R58, R95, R204). -/
theorem step_eq_exec_of_encode {s : State} {i : Instr} {missing rest : List Byte} (hs : s.Inv) (hrun : s.status = .running)
    (hi : i.wellFormed = true) (hpc : s.pc.toNat < s.len)
    (h : s.code.bytes.drop s.pc.toNat ++ missing = encode s.params.opmap i ++ rest) : step s = exec i s := by
  obtain ⟨j, hj⟩ := State.instrAt_of_wf hs.code 0 hpc
  obtain ⟨b, rfl, hb⟩ := State.bytes_of_instrAt hj
  rw [step_of_instrAt ((State.active_iff s).mpr ⟨hrun, hpc⟩) hj,
    ← decode4_encode_append hs.params.2.2 hi h]
  refine exec_decode4_congr (c := fun k => (s.code.bytes.drop s.pc.toNat ++ missing).getD k 0) hpc fun k hk hlt => ?_
  have hread := hb k hk hlt
  rw [Memory.read_eq hs.code, ← List.getElem?_drop] at hread
  obtain ⟨hthere, -⟩ := List.getElem?_eq_some_iff.mp hread
  simp [List.getElem?_append_left hthere, hread]

/-- Settles O58: the missing bytes complete the encoding, and nothing follows it. -/
theorem stepRunsTruncatedInstr : Obligations.StepRunsTruncatedInstr := by
  intro s i missing hs hrun hi hpc _ h
  exact step_eq_exec_of_encode (rest := []) hs hrun hi hpc (by rw [h, List.append_nil])

end Sys2Proof.Machine

/-! PROOFS. The encoder and the decoder agree (R70 to R77, R80), and a step runs what it decodes (R95). -/

namespace Sys2Proof

/-! ## The two tables, length by length. -/

theorem OpId.one_le_length (op : OpId) : 1 ≤ op.length := by
  cases op with
  | bad => decide
  | assigned op => cases op <;> decide

theorem encode_length (m : List Opcode) (i : Instr) : (encode m i).length = i.opId.length := by
  cases i <;> rfl

/-- The encoding of what an identity makes of its bytes is as many of those bytes as its length says (R71 to R79). -/
theorem encode_decode4 {m : List Opcode} (hm : OpMapLegal m) (b0 b1 b2 b3 : Byte) :
    encode m (decode4 m b0 b1 b2 b3) = [b0, b1, b2, b3].take (decodeByte m b0).length := by
  unfold decode4
  cases hop : decodeByte m b0 with
  | bad => rfl
  | assigned op =>
    have hb0 := hm.opcodeByte_of_decodeByte hop
    cases op with
    | load => simp [assemble4, encode, OpId.length, hb0, immHi_immOf, immLo_immOf]
    | add | sub | mul | div | jump | jumpF | jumpB | eq | notEq | greater | less | greaterEq | lessEq | jumpEq | jumpNeq
    | halt => simp [assemble4, encode, OpId.length, hb0]

/-- An instruction that has an opcode is well-formed (R85). -/
theorem Instr.wellFormed_of_opId {i : Instr} {op : Opcode} (h : i.opId = .assigned op) : i.wellFormed = true := by
  cases i with
  | bad o => cases h
  | load | add | sub | mul | div | jump | jumpF | jumpB | eq | notEq | greater | less | greaterEq | lessEq | jumpEq | jumpNeq
  | halt => rfl

theorem decode4_wellFormed {m : List Opcode} (hm : OpMapLegal m) (b0 b1 b2 b3 : Byte) :
    (decode4 m b0 b1 b2 b3).wellFormed = true := by
  unfold decode4
  cases hop : decodeByte m b0 with
  | bad => exact (hm.decodeByte_bad_iff b0).mp hop
  | assigned op => exact Instr.wellFormed_of_opId (opId_assemble4 ..)

/-! ## Decoding a sequence of bytes. -/

/-- A byte sequence with an opcode byte decodes exactly when it has the bytes that byte's identity takes (R79). -/
theorem decode_cons_eq_ok_iff {m : List Opcode} {b : Byte} {bs rest : List Byte} {i : Instr} :
    decode m (b :: bs) = .ok (i, rest) ↔ (decodeByte m b).length ≤ (b :: bs).length ∧
      decode4 m b (bs.getD 0 0) (bs.getD 1 0) (bs.getD 2 0) = i ∧ (b :: bs).drop (decodeByte m b).length = rest := by
  have hpos := (decodeByte m b).one_le_length
  have hlt : bs.length < (decodeByte m b).length - 1 ↔ ¬ (decodeByte m b).length ≤ (b :: bs).length := by
    rw [List.length_cons]
    omega
  have hdrop : (b :: bs).drop (decodeByte m b).length = bs.drop ((decodeByte m b).length - 1) := by
    obtain ⟨n, hn⟩ := Nat.exists_eq_add_of_le' hpos
    rw [hn, List.drop_succ_cons, Nat.add_sub_cancel]
  simp only [decode, hlt, hdrop]
  split
  · next h => simp only [h, false_and, reduceCtorEq]
  · next h => simp only [not_not.mp h, true_and, Except.ok.injEq, Prod.mk.injEq]

/-- An encoding at the head of a byte sequence is read off it (R70 to R77). -/
theorem decode_encode_append {m : List Opcode} (hm : OpMapLegal m) {i : Instr} (hi : i.wellFormed = true)
    (rest : List Byte) : decode m (encode m i ++ rest) = .ok (i, rest) := by
  have hpos := i.opId.one_le_length
  cases hbs : encode m i ++ rest with
  | nil =>
    rw [← encode_length m, (List.append_eq_nil_iff.mp hbs).1] at hpos
    cases hpos
  | cons b bs =>
    have hi4 : decode4 m b (bs.getD 0 0) (bs.getD 1 0) (bs.getD 2 0) = i := decode4_encode_append hm hi hbs.symm
    have hop : decodeByte m b = i.opId := by rw [← hi4, decode4, opId_assemble4]
    refine decode_cons_eq_ok_iff.mpr ⟨?_, hi4, ?_⟩
    · rw [hop, ← hbs, List.length_append, encode_length]
      exact Nat.le_add_right ..
    · rw [hop, ← hbs, ← encode_length m, List.drop_left]

/-- Settles O1: the bytes name the instruction, and its length takes exactly its encoding off them. -/
theorem decodeOfEncode : Obligations.DecodeOfEncode := fun _ _ rest hm hi => decode_encode_append hm hi rest

/-- The four bytes at the head of a sequence, filled with zeros, begin as the sequence does. -/
theorem take_getD_eq_take {b : Byte} {bs : List Byte} {n : Nat} (h4 : n ≤ 4) (hn : n ≤ (b :: bs).length) :
    [b, bs.getD 0 0, bs.getD 1 0, bs.getD 2 0].take n = (b :: bs).take n := by
  match n, bs, h4, hn with
  | 0, _, _, _ | 1, _, _, _ | 2, _ :: _, _, _ | 3, _ :: _ :: _, _, _ | 4, _ :: _ :: _ :: _, _, _ => rfl

/-- Settles O2: the length splits the bytes into the encoding of what they decode to and the rest. -/
theorem encodeOfDecode : Obligations.EncodeOfDecode := by
  intro m bs rest i hm h
  cases bs with
  | nil => cases h
  | cons b bs =>
    obtain ⟨hlen, rfl, rfl⟩ := decode_cons_eq_ok_iff.mp h
    refine ⟨?_, decode4_wellFormed hm ..⟩
    rw [encode_decode4 hm, take_getD_eq_take (OpId.length_le_four _) hlen, List.take_append_drop]

/-! ## Decoding a byte. -/

/-- A byte below 16 decodes to the opcode that `OPMAP` puts there, which is not `Halt` (R8, R77). -/
theorem OpMapLegal.decodeByte_of_lt {m : List Opcode} (hm : OpMapLegal m) {b : Byte} (hb : b.toNat < 16) :
    ∃ op, m[b.toNat]? = some op ∧ op ≠ .halt ∧ decodeByte m b = .assigned op := by
  rw [← hm.length] at hb
  have hget := List.getElem?_eq_getElem hb
  refine ⟨_, hget, fun hhalt => hm.halt_not_mem (hhalt ▸ List.getElem_mem hb), ?_⟩
  have hne : b ≠ haltCode := by
    rintro rfl
    rw [hm.length] at hb
    exact absurd hb (by decide)
  simp only [decodeByte, hne, if_false, hget]

theorem OpMapLegal.decodeByte_of_le {m : List Opcode} (hm : OpMapLegal m) {b : Byte} (hb : 16 ≤ b.toNat)
    (hne : b ≠ haltCode) : decodeByte m b = .bad :=
  (hm.decodeByte_bad_iff b).mpr (decide_eq_true ⟨hb, hne⟩)

/-- The unassigned byte values are 16 to 255 but 254 (R77). -/
theorem unassigned_ofNat_iff {n : Nat} (hn : n < 256) :
    Byte.unassigned (BitVec.ofNat 8 n) = true ↔ n ∈ (Finset.Ico 16 256).erase 254 := by
  have hhalt : BitVec.ofNat 8 n = haltCode ↔ n = 254 := by
    rw [← BitVec.toNat_inj, BitVec.toNat_ofNat, Nat.mod_eq_of_lt hn]
    rfl
  simp only [Byte.unassigned, BitVec.toNat_ofNat, Nat.mod_eq_of_lt hn, ne_eq, hhalt, decide_eq_true_eq, Finset.mem_erase,
    Finset.mem_Ico]
  omega

/-- 239 byte values decode to `Bad` (R77). -/
theorem OpMapLegal.bad_count {m : List Opcode} (hm : OpMapLegal m) :
    ((List.range 256).filter fun n => decodeByte m (BitVec.ofNat 8 n) = .bad).length = 239 := by
  have hbad : (Finset.range 256).filter (fun n => decodeByte m (BitVec.ofNat 8 n) = .bad) =
      (Finset.Ico 16 256).erase 254 := by
    ext n
    rw [Finset.mem_filter, Finset.mem_range, hm.decodeByte_bad_iff, and_congr_right unassigned_ofNat_iff,
      and_iff_right_of_imp]
    exact fun hn => (Finset.mem_Ico.mp (Finset.mem_of_mem_erase hn)).2
  calc
    _ = ((Finset.range 256).filter fun n => decodeByte m (BitVec.ofNat 8 n) = .bad).card := rfl
    _ = 239 := by rw [hbad, Finset.card_erase_of_mem (by simp), Nat.card_Ico]

/-- Settles O3: a legal `OPMAP` fills the bytes 0 to 15, and no other but 254 is assigned. -/
theorem decodeByteIsTotal : Obligations.DecodeByteIsTotal := by
  refine ⟨fun m b hm => ⟨?_, hm.decodeByte_of_lt, hm.decodeByte_of_le⟩, fun m hm => hm.bad_count, by decide⟩
  rintro rfl
  exact hm.decodeByte_opcodeByte .halt

/-- Settles O5: the decoder evaluates to the instruction on each word. -/
theorem specWordsDecode : Obligations.SpecWordsDecode := ⟨rfl, rfl, rfl, rfl, rfl, rfl, rfl⟩

end Sys2Proof

namespace Sys2Proof.Machine

/-- Settles O10: `exec` performs its pseudocode, and in canonical form the fetch meets no hole. -/
theorem engineAlwaysAnswers : Obligations.EngineAlwaysAnswers := ⟨exec_answers, fun _ => step_answers⟩

/-- Settles O8: such a state is not active. -/
theorem idleTickChangesNothing : Obligations.IdleTickChangesNothing := by
  intro s h
  refine step_of_not_active (Bool.eq_false_iff.mpr fun hactive => ?_)
  obtain ⟨hrun, hpc⟩ := (State.active_iff s).mp hactive
  exact h.elim (fun hs => hs hrun) (Nat.not_le.mpr hpc)

/-- Settles O6: an encoding is not empty, so the buffer goes on past the program counter, and nothing of it is missing. -/
theorem stepRunsDecodedInstr : Obligations.StepRunsDecodedInstr := by
  intro s i rest hs hrun hi h
  have hpc : s.pc.toNat < s.len := by
    have hlen := congrArg List.length h
    rw [List.length_drop, Memory.bytes_length, List.length_append, encode_length] at hlen
    have hpos := i.opId.one_le_length
    simp only [State.len]
    omega
  exact step_eq_exec_of_encode (missing := []) hs hrun hi hpc (by rw [List.append_nil, h])

/-- The immediate zero-extended to 32 bits is `256 × B2 + B3` (R80). -/
theorem setWidth_immOf (hi lo : Byte) : (immOf hi lo).setWidth 32 = BitVec.ofNat 32 (256 * hi.toNat + lo.toNat) := by
  rw [← BitVec.ofNat_toNat, immOf_toNat]

/-- What a `Load` that raises nothing answers (R110). -/
theorem exec_load_ok {r : Byte} {s : State} (h : s.holds 4) (hr : r.toNat < 32) (imm : Imm) :
    exec (.load r imm) s = .next ((s.setReg ⟨r.toNat, hr⟩ (imm.setWidth 32)).setPc (s.pc.toNat + 4)) := by
  rcases load_cases r imm s with ⟨e, k, hraise, -⟩ | ⟨-, _, hok⟩
  · exact (hraise.false_of_holds h (by simpa using hr)).elim
  · exact hok

/-- Settles O15: the four bytes are the encoding of that `Load`, which completes. -/
theorem loadZeroExtendsImmediate : Obligations.LoadZeroExtendsImmediate := by
  refine ⟨fun m r b2 b3 rest hm => ?_, fun s r b2 b3 hr h4 => ?_⟩
  · have h := decode_encode_append hm (i := .load r (immOf b2 b3)) rfl rest
    rwa [encode, immHi_immOf, immLo_immOf] at h
  · rw [exec_load_ok h4 hr, setWidth_immOf, State.setPc, State.ofNat_pc_add]
    rfl

end Sys2Proof.Machine

/-! PROOFS. The parser (R102 to R104): what a line gives, and that a program is what its lines give. -/

namespace Sys2Proof.Asm

/-! ## Chaining the parser's answers. -/

theorem bind_eq_ok_iff {α β : Type} {x : Except AsmError α} {f : α → Except AsmError β} {b : β} :
    x >>= f = .ok b ↔ ∃ a, x = .ok a ∧ f a = .ok b := by
  cases x <;> simp [bind, Except.bind]

theorem bind_eq_error_iff {α β : Type} {x : Except AsmError α} {f : α → Except AsmError β} {e : AsmError} :
    x >>= f = .error e ↔ x = .error e ∨ ∃ a, x = .ok a ∧ f a = .error e := by
  cases x <;> simp [bind, Except.bind]

/-! ## One line. -/

/-- The error of an operand slot carries the token that stands there (R104). -/
theorem found_of_parseOperand {k : OperandKind} {x : Lexeme} {e : AsmError} (h : parseOperand k x = .error e) :
    e.found = x := by
  unfold parseOperand at h
  split at h <;> cases h <;> rfl

theorem found_endError (e : Expected) (last : Lexeme) : (endError e last).found = last := by
  unfold endError
  split <;> rfl

/-- The error of an operand list carries a token of the line's rest or the one that ends the line (R104). -/
theorem found_of_parseOperands {ks : List OperandKind} {xs : List Lexeme} {last : Lexeme} {e : AsmError}
    (h : parseOperands ks xs last = .error e) : e.found ∈ xs ++ [last] := by
  induction ks generalizing xs with
  | nil =>
    cases xs with
    | nil => cases h
    | cons x xs =>
      cases h
      exact List.mem_cons_self
  | cons k ks ih =>
    cases xs with
    | nil =>
      cases h
      simp [found_endError]
    | cons x xs =>
      rcases bind_eq_error_iff.mp h with ho | ⟨o, -, h⟩
      · rw [found_of_parseOperand ho]
        exact List.mem_cons_self
      rcases bind_eq_error_iff.mp h with hos | ⟨os, -, h⟩
      · exact List.mem_cons_of_mem x (ih hos)
      · cases h

theorem found_of_parseInstr {x : Lexeme} {xs : List Lexeme} {last : Lexeme} {e : AsmError}
    (h : parseInstr x xs last = .error e) : e.found ∈ x :: xs ++ [last] := by
  unfold parseInstr at h
  split at h
  · rcases bind_eq_error_iff.mp h with hos | ⟨os, -, h⟩
    · exact List.mem_cons_of_mem x (found_of_parseOperands hos)
    · cases h
  · cases h
    exact List.mem_cons_self

/-- A line writes an instruction exactly when its first token is the opcode and the rest is taken as the operands. -/
theorem lineWrites_cons_iff {x : Lexeme} {xs : List Lexeme} {last : Lexeme} {i : AsmInstr} :
    LineWrites { tokens := x :: xs, last := last } i ↔ x.token = .op i.op ∧
      parseOperands (operandKinds i.op) xs last = .ok i.operands ∧ x.line = i.line ∧ i.label = none := by
  rw [parseOperands_ok_iff]
  constructor
  · rintro ⟨htokens, hkinds, hline, hlabel⟩
    obtain ⟨hop, hoperands⟩ := List.cons.inj htokens
    exact ⟨hop, ⟨hoperands, hkinds⟩, Option.some.inj hline, hlabel⟩
  · rintro ⟨hop, ⟨hoperands, hkinds⟩, hline, hlabel⟩
    exact ⟨congrArg₂ List.cons hop hoperands, hkinds, congrArg some hline, hlabel⟩

/-- A line that starts with a token is parsed to an instruction exactly when it writes it (R102, R103). -/
theorem parseInstr_eq_ok_iff {x : Lexeme} {xs : List Lexeme} {last : Lexeme} {i : AsmInstr} :
    parseInstr x xs last = .ok i ↔ LineWrites { tokens := x :: xs, last := last } i := by
  rw [lineWrites_cons_iff]
  unfold parseInstr
  split
  · next o ho =>
    rw [bind_eq_ok_iff, ho]
    constructor
    · rintro ⟨os, hos, ⟨⟩⟩
      exact ⟨rfl, hos, rfl, rfl⟩
    · obtain ⟨op, operands, line, label⟩ := i
      rintro ⟨⟨⟩, hos, rfl, rfl⟩
      exact ⟨operands, hos, rfl⟩
  · next hop => exact ⟨nofun, fun ⟨h, _⟩ => (hop i.op h).elim⟩

/-- All that the parse of one line can give (R102 to R104): nothing, the instruction it writes, or one error. -/
theorem parseLines_singleton_cases (l : Line) :
    (l.tokens = [] ∧ parseLines [l] = { instrs := [], errors := [] }) ∨
    (l.tokens ≠ [] ∧ ∃ i, LineWrites l i ∧ parseLines [l] = { instrs := [i], errors := [] }) ∨
    (l.tokens ≠ [] ∧ (¬ ∃ i, LineWrites l i) ∧
      ∃ e, parseLines [l] = { instrs := [], errors := [e] } ∧ e.found ∈ l.tokens ++ [l.last]) := by
  obtain ⟨tokens, last⟩ := l
  cases tokens with
  | nil => exact .inl ⟨rfl, rfl⟩
  | cons x xs =>
    simp only [parseLines]
    cases h : parseInstr x xs last with
    | ok i => exact .inr (.inl ⟨List.cons_ne_nil _ _, i, parseInstr_eq_ok_iff.mp h, rfl⟩)
    | error e =>
      refine .inr (.inr ⟨List.cons_ne_nil _ _, ?_, e, rfl, found_of_parseInstr h⟩)
      rintro ⟨i, hi⟩
      cases h.symm.trans (parseInstr_eq_ok_iff.mpr hi)

theorem LineWrites.tokens_ne_nil {l : Line} {i : AsmInstr} (h : LineWrites l i) : l.tokens ≠ [] := by
  intro hnil
  simpa [hnil] using h.tokens

/-- The instruction a line writes is all that its parse gives. -/
theorem LineWrites.parseLines_eq {l : Line} {i : AsmInstr} (h : LineWrites l i) :
    parseLines [l] = { instrs := [i], errors := [] } := by
  obtain ⟨tokens, last⟩ := l
  obtain ⟨x, xs, rfl⟩ := List.exists_cons_of_ne_nil h.tokens_ne_nil
  simp only [parseLines, parseInstr_eq_ok_iff.mpr h]

/-- Settles O54: the three things that the parse of one line can give. -/
theorem eachLineGivesInstrOrError : Obligations.EachLineGivesInstrOrError := by
  refine ⟨fun l i h => h.parseLines_eq, fun l hne hnot => ?_, fun l hnil => ?_⟩
  · rcases parseLines_singleton_cases l with ⟨hnil, -⟩ | ⟨-, i, hi, -⟩ | ⟨-, -, herror⟩
    · exact absurd hnil hne
    · exact absurd ⟨i, hi⟩ hnot
    · exact herror
  · simp only [parseLines, hnil]

/-! ## The lines of a program. -/

theorem parseLines_instrs (ls : List Line) :
    (parseLines ls).instrs = ls.flatMap fun l => (parseLines [l]).instrs := by
  induction ls with
  | nil => rfl
  | cons l ls ih => rw [parseLines_cons, List.flatMap_cons, ih]

theorem parseLines_errors (ls : List Line) :
    (parseLines ls).errors = ls.flatMap fun l => (parseLines [l]).errors := by
  induction ls with
  | nil => rfl
  | cons l ls ih => rw [parseLines_cons, List.flatMap_cons, ih]

/-- A line gives one thing if it has a token, and otherwise nothing. -/
theorem parseLines_singleton_count (l : Line) :
    (parseLines [l]).instrs.length + (parseLines [l]).errors.length = if l.tokens ≠ [] then 1 else 0 := by
  rcases parseLines_singleton_cases l with ⟨ht, h⟩ | ⟨ht, i, -, h⟩ | ⟨ht, -, e, h, -⟩ <;> simp [h, ht]

theorem parseLines_count (ls : List Line) :
    (parseLines ls).instrs.length + (parseLines ls).errors.length = (ls.filter fun l => l.tokens ≠ []).length := by
  induction ls with
  | nil => rfl
  | cons l ls ih =>
    have hl := parseLines_singleton_count l
    simp only [← List.countP_eq_length_filter, List.countP_cons, decide_eq_true_eq] at ih ⊢
    rw [parseLines_cons, List.length_append, List.length_append, ← ih, ← hl]
    omega

theorem splitLines_newline {x : Lexeme} (h : x.token = .newline) (seen xs : List Lexeme) :
    splitLines seen (x :: xs) = { tokens := seen.reverse, last := x } :: splitLines [] xs := by
  simp only [splitLines, h]

theorem splitLines_eof {x : Lexeme} (h : x.token = .eof) (seen xs : List Lexeme) :
    splitLines seen (x :: xs) = [{ tokens := seen.reverse, last := x }] := by
  simp only [splitLines, h]

theorem splitLines_inLine {x : Lexeme} (h : ¬ EndsLine x.token) (seen xs : List Lexeme) :
    splitLines seen (x :: xs) = splitLines (x :: seen) xs := by
  rw [splitLines]
  split
  · next hnewline => exact absurd (.inl hnewline) h
  · next heof => exact absurd (.inr heof) h
  · rfl

/-- Cutting a stream that ends at its only `Eof` loses nothing (R104). -/
theorem splitLines_flatMap {body : List Lexeme} {last : Lexeme} (hbody : ∀ x ∈ body, x.token ≠ .eof)
    (hlast : last.token = .eof) (seen : List Lexeme) :
    ((splitLines seen (body ++ [last])).flatMap fun l => l.tokens ++ [l.last]) = seen.reverse ++ (body ++ [last]) := by
  induction body generalizing seen with
  | nil => simp [splitLines_eof hlast]
  | cons x body ih =>
    have ih := ih fun y hy => hbody y (List.mem_cons_of_mem x hy)
    rw [List.cons_append]
    by_cases hnewline : x.token = .newline
    · simp [splitLines_newline hnewline, ih]
    · have hx : ¬ EndsLine x.token := not_or.mpr ⟨hnewline, hbody x List.mem_cons_self⟩
      simp [splitLines_inLine hx, ih]

/-- A line ends at its first `Newline` or `Eof` (R102). -/
theorem endsLine_of_mem_splitLines {toks seen : List Lexeme} (hseen : ∀ x ∈ seen, ¬ EndsLine x.token) {l : Line}
    (hl : l ∈ splitLines seen toks) : EndsLine l.last.token ∧ ∀ x ∈ l.tokens, ¬ EndsLine x.token := by
  induction toks generalizing seen with
  | nil => cases hl
  | cons x xs ih =>
    have hrev : ∀ y ∈ seen.reverse, ¬ EndsLine y.token := fun y hy => hseen y (List.mem_reverse.mp hy)
    by_cases hx : EndsLine x.token
    · rcases hx with hnewline | heof
      · rw [splitLines_newline hnewline, List.mem_cons] at hl
        rcases hl with rfl | hl
        · exact ⟨.inl hnewline, hrev⟩
        · exact ih (List.forall_mem_nil _) hl
      · rw [splitLines_eof heof, List.mem_singleton] at hl
        subst hl
        exact ⟨.inr heof, hrev⟩
    · rw [splitLines_inLine hx] at hl
      exact ih (List.forall_mem_cons.mpr ⟨hx, hseen⟩) hl

end Sys2Proof.Asm

/-! PROOFS. The lexer (R98 to R101): every token but `Eof` takes a byte, and what a text that starts with an opcode or a
literal gives. -/

namespace Sys2Proof.Asm

/-! ## Reaching `Eof`. -/

/-- Skipping takes a byte or does nothing at all; so a line boundary that is crossed takes one (R101). -/
theorem skip_cases (inComment crossed : Bool) (pos line : Nat) (bs : List Byte) :
    (skip inComment crossed pos line bs).lexer.rest.length < bs.length ∨
    ((skip inComment crossed pos line bs).lexer.rest = bs ∧ (skip inComment crossed pos line bs).crossed = crossed) := by
  induction bs generalizing inComment crossed pos line with
  | nil => exact .inr ⟨rfl, rfl⟩
  | cons b bs ih =>
    have hlt (c x : Bool) (p n : Nat) : (skip c x p n bs).lexer.rest.length < (b :: bs).length := by
      rcases ih c x p n with h | ⟨h, -⟩
      · exact Nat.lt_succ_of_lt h
      · exact Nat.lt_succ_of_le (Nat.le_of_eq (congrArg List.length h))
    unfold skip
    split
    · exact .inl (hlt ..)
    split
    · exact .inl (hlt ..)
    split
    · exact .inl (hlt ..)
    · exact .inr ⟨rfl, rfl⟩

theorem realToken_nil {l : Lexer} (h : l.rest = []) : realToken l = l.take .eof 0 := by
  simp only [realToken, h]

theorem Lexer.take_rest_length_lt {l : Lexer} (hl : l.rest ≠ []) (t : Token) {n : Nat} (hn : 0 < n) :
    (l.take t n).2.rest.length < l.rest.length := by
  have := List.length_pos_of_ne_nil hl
  simp only [Lexer.take, Lexer.advance, List.length_drop]
  omega

/-- A token that starts at a byte takes at least that one. -/
theorem realToken_rest_length_lt {l : Lexer} (hl : l.rest ≠ []) : (realToken l).2.rest.length < l.rest.length := by
  obtain ⟨rest, pos, line⟩ := l
  obtain ⟨b, bs, rfl⟩ := List.exists_cons_of_ne_nil hl
  unfold realToken
  split
  · contradiction
  split
  · exact Lexer.take_rest_length_lt hl _ (Nat.succ_pos _)
  split
  · exact Lexer.take_rest_length_lt hl _ (Nat.succ_pos _)
  split
  · next hletter => exact Lexer.take_rest_length_lt hl _ (by simp [hletter])
  · exact Lexer.take_rest_length_lt hl _ Nat.one_pos

/-- Every token but `Eof` takes at least one byte (R101). -/
theorem nextToken_rest_length_lt {l : Lexer} (h : (nextToken l).1.token ≠ .eof) :
    (nextToken l).2.rest.length < l.rest.length := by
  unfold nextToken at h ⊢
  have hskip := skip_cases false false l.pos l.line l.rest
  cases hcrossed : (skip false false l.pos l.line l.rest).crossed with
  | true =>
    simp only [hcrossed, if_true]
    exact hskip.resolve_right fun hnone => by simp [hcrossed] at hnone
  | false =>
    simp only [hcrossed, Bool.false_eq_true, if_false] at h ⊢
    have htoken := realToken_rest_length_lt fun hnil => h (by rw [realToken_nil hnil]; rfl)
    rcases hskip with hlt | ⟨hrest, -⟩
    · exact Nat.lt_trans htoken hlt
    · exact Nat.lt_of_lt_of_eq htoken (congrArg List.length hrest)

/-- With fuel for every byte and one more, the tokens end in `Eof` and hold it nowhere else. -/
theorem lexAll_ends_in_eof {fuel : Nat} {l : Lexer} (h : l.rest.length < fuel) :
    ∃ body last, lexAll fuel l = body ++ [last] ∧ last.token = .eof ∧ ∀ x ∈ body, x.token ≠ .eof := by
  induction fuel generalizing l with
  | zero => exact absurd h (Nat.not_lt_zero _)
  | succ fuel ih =>
    simp only [lexAll]
    by_cases heof : (nextToken l).1.token = .eof
    · exact ⟨[], (nextToken l).1, by rw [if_pos heof]; rfl, heof, nofun⟩
    · obtain ⟨body, last, hlex, hlast, hbody⟩ :=
        ih (Nat.lt_of_lt_of_le (nextToken_rest_length_lt heof) (Nat.le_of_lt_succ h))
      exact ⟨(nextToken l).1 :: body, last, by rw [if_neg heof, hlex]; rfl, hlast,
        List.forall_mem_cons.mpr ⟨heof, hbody⟩⟩

theorem lexSource_ends_in_eof (src : List Byte) :
    ∃ body last, lexSource src = body ++ [last] ∧ last.token = .eof ∧ ∀ x ∈ body, x.token ≠ .eof :=
  lexAll_ends_in_eof (Nat.lt_succ_self _)

/-- Settles O52: the fuel is more than the bytes, of which every other token takes one. -/
theorem lexerEndsInEof : Obligations.LexerEndsInEof := by
  refine ⟨lexSource_ends_in_eof, fun l hl => ?_⟩
  obtain ⟨rest, pos, line⟩ := l
  subst hl
  exact ⟨rfl, rfl⟩

/-- Settles O60: the lexer's tokens end at their only `Eof`, and the parse goes line by line. -/
theorem programIsParsedByLines : Obligations.ProgramIsParsedByLines := by
  intro src ls
  obtain ⟨body, last, hlex, hlast, hbody⟩ := lexSource_ends_in_eof src
  refine ⟨?_, fun l hl => endsLine_of_mem_splitLines (List.forall_mem_nil _) hl, parseLines_instrs ls,
    parseLines_errors ls, parseLines_count ls⟩
  simp only [ls, hlex]
  exact splitLines_flatMap hbody hlast []

/-! ## Opcodes and literals. -/

/-- At a byte that is no whitespace and starts no comment, the token that starts there is next (R101). -/
theorem nextToken_of_solid {b : Byte} {bs : List Byte} {pos line : Nat} (hlf : b ≠ lineFeed) (hblank : isBlank b = false)
    (hsemi : b ≠ 0x3B) :
    nextToken { rest := b :: bs, pos := pos, line := line } = realToken { rest := b :: bs, pos := pos, line := line } := by
  simp only [nextToken, skip, if_neg hlf, hblank, Bool.or_self, Bool.false_eq_true, if_false, if_neg hsemi]

/-- A run of the characters of a class, up to one that is not of it, is the whole of what is read (R99 to R101). -/
theorem takeWhile_run {p : Byte → Bool} {run rest : List Byte} (hrun : run.all p = true)
    (hrest : rest.head?.all (fun b => !p b) = true) : (run ++ rest).takeWhile p = run := by
  rw [List.takeWhile_append_of_pos (List.all_eq_true.mp hrun)]
  cases rest with
  | nil => simp
  | cons b rest =>
    have hb : p b = false := by simpa using hrest
    simp [hb]

/-- The value of a digit run, most significant digit first (R99, R100). -/
theorem runValue_eq_ofDigits (base : Nat) (run : List Byte) :
    runValue base run = Nat.ofDigits base (run.reverse.map digitValue) := by
  simp only [runValue, Nat.ofDigits_eq_foldr, List.foldr_map, List.foldr_reverse, Nat.cast_id, Nat.add_comm, Nat.mul_comm]

theorem regToken_of_ne_nil {run : List Byte} (h : run ≠ []) : regToken run =
    if runValue 16 run ≤ 4294967295 then .reg (BitVec.ofNat 8 (runValue 16 run)) else .invalidReg := by
  simp only [regToken, h, false_or, ← Nat.not_le, ite_not]

theorem intToken_of_ne_nil {run : List Byte} (h : run ≠ []) : intToken run =
    if runValue 10 run ≤ 2147483647 then .int (BitVec.ofNat 32 (runValue 10 run)) else .invalidInt := by
  simp only [intToken, h, false_or, ← Nat.not_le, ite_not]

/-- Every accepted spelling is a run of letters that resolves to its own opcode (R98). -/
theorem spelling_resolves {o : Opcode} {run : List Byte} (h : run ∈ spellings o) :
    run ≠ [] ∧ run.all isLetter = true ∧ resolve run = some o := by
  have hall : ∀ o ∈ Opcode.all, ∀ run ∈ spellings o, run ≠ [] ∧ run.all isLetter = true ∧ resolve run = some o := by
    decide
  exact hall o (by cases o <;> decide) run h

/-- The letters are `A` and above. -/
theorem le_toNat_of_isLetter {b : Byte} (h : isLetter b = true) : 0x41 ≤ b.toNat := by
  simp only [isLetter, isUpper, isLower, Bool.or_eq_true, Bool.and_eq_true, decide_eq_true_eq] at h
  omega

/-- A letter is none of the characters below `A`. -/
theorem ne_of_isLetter {b c : Byte} (h : isLetter b = true) (hc : c.toNat < 0x41) : b ≠ c := by
  rintro rfl
  exact absurd (le_toNat_of_isLetter h) (Nat.not_le.mpr hc)

/-- A letter starts a run of letters (R101). -/
theorem nextToken_of_isLetter {b : Byte} {bs : List Byte} {pos line : Nat} (h : isLetter b = true) :
    nextToken { rest := b :: bs, pos := pos, line := line } =
      Lexer.take { rest := b :: bs, pos := pos, line := line } (wordToken ((b :: bs).takeWhile isLetter))
        ((b :: bs).takeWhile isLetter).length := by
  have hne {c : Byte} (hc : c.toNat < 0x41) : b ≠ c := ne_of_isLetter h hc
  rw [nextToken_of_solid (hne (by decide)) (by simp [isBlank, hne]) (hne (by decide))]
  simp [realToken, hne, h]

theorem nextToken_dollar (bs : List Byte) (pos line : Nat) :
    nextToken { rest := 0x24 :: bs, pos := pos, line := line } =
      Lexer.take { rest := 0x24 :: bs, pos := pos, line := line } (regToken (bs.takeWhile isHexDigit))
        ((bs.takeWhile isHexDigit).length + 1) := by
  rw [nextToken_of_solid (by decide) (by decide) (by decide)]
  rfl

theorem nextToken_hash (bs : List Byte) (pos line : Nat) :
    nextToken { rest := 0x23 :: bs, pos := pos, line := line } =
      Lexer.take { rest := 0x23 :: bs, pos := pos, line := line } (intToken (bs.takeWhile isDecDigit))
        ((bs.takeWhile isDecDigit).length + 1) := by
  rw [nextToken_of_solid (by decide) (by decide) (by decide)]
  rfl

/-- Settles O59: each run is read up to the first character that is not of its class. -/
theorem lexerReadsOpcodesAndLiterals : Obligations.LexerReadsOpcodesAndLiterals := by
  intro run rest pos line
  refine ⟨fun o ho hrest => ?_, fun hne hrun hrest => ?_, fun hne hrun hrest => ?_⟩
  · obtain ⟨hne, hrun, hresolve⟩ := spelling_resolves ho
    have hread := takeWhile_run hrun hrest
    obtain ⟨b, bs, rfl⟩ := List.exists_cons_of_ne_nil hne
    have hb : isLetter b = true := List.all_eq_true.mp hrun b List.mem_cons_self
    rw [List.cons_append] at hread ⊢
    simp only [nextToken_of_isLetter hb, hread, wordToken, hresolve, Lexer.take, Lexer.advance]
    rw [← List.cons_append, List.drop_left]
  · rw [List.cons_append, nextToken_dollar, takeWhile_run hrun hrest, regToken_of_ne_nil hne, runValue_eq_ofDigits]
    simp [Lexer.take, Lexer.advance, Nat.add_assoc]
  · rw [List.cons_append, nextToken_hash, takeWhile_run hrun hrest, intToken_of_ne_nil hne, runValue_eq_ofDigits]
    simp [Lexer.take, Lexer.advance, Nat.add_assoc]

end Sys2Proof.Asm

/-! PROOFS. The assembler (R105 to R109): a parsed instruction stands for an engine instruction with the same bytes, so the
decoder reads an assembled program back. -/

namespace Sys2Proof.Asm

/-! ## Parsed instructions. -/

/-- Every parsed instruction has operands of its opcode's kinds, and no label (R103, R108). -/
theorem kinds_of_mem_parseSource {src : List Byte} {i : AsmInstr} (h : i ∈ (parseSource src).instrs) :
    i.operands.map Operand.kind = operandKinds i.op ∧ i.label = none := by
  rw [parseSource, parseLines_instrs, List.mem_flatMap] at h
  obtain ⟨l, -, hi⟩ := h
  rcases parseLines_singleton_cases l with ⟨-, hl⟩ | ⟨-, j, hj, hl⟩ | ⟨-, -, e, hl, -⟩
  · simp [hl] at hi
  · obtain rfl : i = j := by simpa [hl] using hi
    exact ⟨hj.kinds, hj.label⟩
  · simp [hl] at hi

theorem Operand.kind_eq_reg_iff {o : Operand} : o.kind = .reg ↔ ∃ r, o = .reg r := by
  cases o <;> simp [Operand.kind]

theorem Operand.kind_eq_int_iff {o : Operand} : o.kind = .int ↔ ∃ v, o = .int v := by
  cases o <;> simp [Operand.kind]

/-- An instruction with operands of its opcode's kinds stands for an engine instruction of its opcode, whose encoding is
its bytes (R103, R105). -/
theorem toInstr_of_kinds (p : Params) {i : AsmInstr} (h : i.operands.map Operand.kind = operandKinds i.op) :
    ∃ j, toInstr p i = some j ∧ j.opId = .assigned i.op ∧ encode p.opmap j = encodeAsm p i := by
  obtain ⟨op, operands, line, label⟩ := i
  cases op with
  | halt =>
    obtain rfl := List.map_eq_nil_iff.mp h
    exact ⟨_, rfl, rfl, rfl⟩
  | jump | jumpF | jumpB | jumpEq | jumpNeq =>
    obtain ⟨r, rfl⟩ : ∃ r, operands = [.reg r] := by
      simpa [operandKinds, List.map_eq_cons_iff, Operand.kind_eq_reg_iff] using h
    exact ⟨_, rfl, rfl, rfl⟩
  | load =>
    obtain ⟨r, v, rfl⟩ : ∃ r v, operands = [.reg r, .int v] := by
      simpa [operandKinds, List.map_eq_cons_iff, Operand.kind_eq_reg_iff, Operand.kind_eq_int_iff] using h
    exact ⟨_, rfl, rfl, rfl⟩
  | eq | notEq | greater | less | greaterEq | lessEq =>
    obtain ⟨a, b, rfl⟩ : ∃ a b, operands = [.reg a, .reg b] := by
      simpa [operandKinds, List.map_eq_cons_iff, Operand.kind_eq_reg_iff] using h
    exact ⟨_, rfl, rfl, rfl⟩
  | add | sub | mul | div =>
    obtain ⟨a, b, d, rfl⟩ : ∃ a b d, operands = [.reg a, .reg b, .reg d] := by
      simpa [operandKinds, List.map_eq_cons_iff, Operand.kind_eq_reg_iff] using h
    exact ⟨_, rfl, rfl, rfl⟩

theorem operandKinds_length (op : Opcode) : (operandKinds op).length = op.arity := by
  cases op <;> rfl

/-- Settles O53: the operands are of the opcode's kinds, as many as its arity. -/
theorem parsedOperandsFitOpcode : Obligations.ParsedOperandsFitOpcode := by
  intro p src i hi
  obtain ⟨hkinds, hlabel⟩ := kinds_of_mem_parseSource hi
  obtain ⟨j, hj, hop, -⟩ := toInstr_of_kinds p hkinds
  refine ⟨?_, hlabel, j, hj, hop⟩
  rw [← operandKinds_length, ← hkinds, List.length_map]

/-! ## The bytes of a program. -/

/-- The bytes of an instruction are as many as its opcode's length says (R79, R105). -/
theorem encodeAsm_length (p : Params) {i : AsmInstr} (h : i.operands.map Operand.kind = operandKinds i.op) :
    (encodeAsm p i).length = (OpId.assigned i.op).length := by
  obtain ⟨j, -, hop, henc⟩ := toInstr_of_kinds p h
  rw [← henc, encode_length, hop]

/-- Settles O56: the lengths of R79 are those of the instructions' bytes, which stand one after the other. -/
theorem programOffsetsAreLengthSums : Obligations.ProgramOffsetsAreLengthSums := by
  intro p src k
  have hlen : ∀ i ∈ (parseSource src).instrs.take k, (OpId.assigned i.op).length = (encodeAsm p i).length :=
    fun i hi => (encodeAsm_length p (kinds_of_mem_parseSource (List.mem_of_mem_take hi)).1).symm
  have hdrop := List.drop_sum_flatten ((parseSource src).instrs.map (encodeAsm p)) k
  rw [List.map_map, ← List.map_take, ← List.map_drop] at hdrop
  rw [List.map_congr_left hlen]
  exact hdrop

/-- Instructions with operands of their opcodes' kinds stand for engine instructions whose encodings are their bytes. -/
theorem mapM_toInstr_of_kinds (p : Params) {is : List AsmInstr}
    (h : ∀ i ∈ is, i.operands.map Operand.kind = operandKinds i.op) :
    ∃ js, is.mapM (toInstr p) = some js ∧ encodeProgram p is = js.flatMap (encode p.opmap) ∧
      ∀ j ∈ js, j.wellFormed = true := by
  induction is with
  | nil => exact ⟨[], rfl, rfl, nofun⟩
  | cons i is ih =>
    obtain ⟨hi, his⟩ := List.forall_mem_cons.mp h
    obtain ⟨j, hj, hop, henc⟩ := toInstr_of_kinds p hi
    obtain ⟨js, hjs, hencs, hwf⟩ := ih his
    refine ⟨j :: js, by simp [hj, hjs], ?_, List.forall_mem_cons.mpr ⟨Instr.wellFormed_of_opId hop, hwf⟩⟩
    rw [encodeProgram] at hencs ⊢
    rw [List.flatMap_cons, List.flatMap_cons, henc, hencs]

/-- A straight-line decode goes on after the instruction it has read (R109). -/
theorem decodeStream_succ_of_decode {m : List Opcode} {fuel : Nat} {bs rest : List Byte} {i : Instr}
    (h : decode m bs = .ok (i, rest)) : decodeStream m (fuel + 1) bs = (decodeStream m fuel rest).map (i :: ·) := by
  cases bs with
  | nil => cases h
  | cons b bs => simp only [decodeStream, h]

/-- A straight-line decode of encodings, one after the other, gives their instructions; fuel for every byte is enough
(R109). -/
theorem decodeStream_flatMap_encode {m : List Opcode} (hm : OpMapLegal m) {js : List Instr}
    (hjs : ∀ j ∈ js, j.wellFormed = true) {fuel : Nat} (hfuel : (js.flatMap (encode m)).length ≤ fuel) :
    decodeStream m fuel (js.flatMap (encode m)) = some js := by
  induction js generalizing fuel with
  | nil => cases fuel <;> rfl
  | cons j js ih =>
    obtain ⟨hj, hrest⟩ := List.forall_mem_cons.mp hjs
    have hpos := j.opId.one_le_length
    rw [List.flatMap_cons] at hfuel ⊢
    rw [List.length_append, encode_length] at hfuel
    obtain ⟨fuel, rfl⟩ := Nat.exists_eq_add_of_le' (show 1 ≤ fuel by omega)
    rw [decodeStream_succ_of_decode (decode_encode_append hm hj _), ih hrest (by omega), Option.map_some]

/-- Settles O55: the assembled bytes are the encodings of the engine instructions that the parsed ones stand for. -/
theorem assembledProgramDecodes : Obligations.AssembledProgramDecodes := by
  intro p src hp
  obtain ⟨js, hjs, hencs, hwf⟩ := mapM_toInstr_of_kinds p fun i hi => (kinds_of_mem_parseSource (src := src) hi).1
  refine ⟨js, hjs, ?_⟩
  rw [assembleSource, hencs]
  exact decodeStream_flatMap_encode hp.2.2 hwf (Nat.le_refl _)

/-! ## Literals. -/

/-- The two bytes of a literal are those of its value mod 2^16, the high one first (R105, R106). -/
theorem immHi_truncate (v : Word) : immHi (truncate v) = BitVec.ofNat 8 (v.toNat % 65536 / 256) := by
  apply BitVec.eq_of_toNat_eq
  simp [immHi, truncate, Nat.shiftRight_eq_div_pow]

theorem immLo_truncate (v : Word) : immLo (truncate v) = BitVec.ofNat 8 (v.toNat % 256) := by
  apply BitVec.eq_of_toNat_eq
  simp [immLo, truncate]

/-- Settles O57: the bytes are the opcode's, the register's index and the two of the truncated literal. -/
theorem literalIsTruncated : Obligations.LiteralIsTruncated := by
  intro p r v line label
  simp [encodeAsm, encodeOperand, isComparison, immHi_truncate, immLo_truncate]

end Sys2Proof.Asm

/-! PROOFS. The results of `Add`, `Sub`, `Mul` and `Div` as 32-bit words, and where they raise instead (R119 to R125). -/

namespace Sys2Proof.Machine

/-! ## The low 32 bits of an exact result. -/

theorem fits32_eq_false_iff (n : Int) : fits32 n = false ↔ OutOfRange n := by
  rw [← Bool.not_eq_true, fits32_iff]
  omega

theorem ofInt_toInt_add (A B : Word) : BitVec.ofInt 32 (A.toInt + B.toInt) = A + B := by
  rw [BitVec.ofInt_add, BitVec.ofInt_toInt, BitVec.ofInt_toInt]

theorem ofInt_toInt_sub (A B : Word) : BitVec.ofInt 32 (A.toInt - B.toInt) = A - B := by
  rw [Int.sub_eq_add_neg, BitVec.ofInt_add, BitVec.ofInt_neg, BitVec.ofInt_toInt, BitVec.ofInt_toInt,
    BitVec.sub_eq_add_neg]

theorem ofInt_toInt_mul (A B : Word) : BitVec.ofInt 32 (A.toInt * B.toInt) = A * B := by
  rw [BitVec.ofInt_mul, BitVec.ofInt_toInt, BitVec.ofInt_toInt]

/-- The wrapped quotient is the two's-complement one, also for `-2^31 / -1` (R16, R125). -/
theorem ofInt_truncDiv_toInt (A B : Word) : BitVec.ofInt 32 (truncDiv A.toInt B.toInt) = A.sdiv B := by
  apply BitVec.eq_of_toInt_eq
  rw [BitVec.toInt_ofInt, BitVec.toInt_sdiv, truncDiv]

theorem ofInt_truncRem_toInt (A B : Word) : BitVec.ofInt 32 (truncRem A.toInt B.toInt) = A.srem B := by
  rw [truncRem_eq_tmod, ← BitVec.toInt_srem, BitVec.ofInt_toInt]

theorem State.readInt_eq_zero_iff (s : State) (k : RegIdx) : s.readInt k = 0 ↔ s.readReg k = 0 := by
  rw [State.readInt, ← BitVec.toInt_inj]
  rfl

/-! ## `Add`, `Sub` and `Mul`. -/

section
variable {i : Instr} {f : Int → Int → Int} {a b d : Byte} {s : State} (hbody : Instr.body i s = arith f a b d s)
  (h4 : s.holds 4) (ha : a.toNat < 32) (hb : b.toNat < 32) (hd : d.toNat < 32)
include hbody h4 hd

/-- What an `Add`, `Sub` or `Mul` that raises nothing answers, and its value where the exact result fits (R119, R123). -/
theorem exec_arith_result {V : Word} (hV : BitVec.ofInt 32 (f (s.readInt ⟨a.toNat, ha⟩) (s.readInt ⟨b.toNat, hb⟩)) = V) :
    let n := f (s.readInt ⟨a.toNat, ha⟩) (s.readInt ⟨b.toNat, hb⟩)
    let fits := -2147483648 ≤ n ∧ n ≤ 2147483647
    (s.params.overflow = .wrap ∨ fits → exec i s = .next { s with regs := s.regs.set d.toNat V hd, pc := s.pc + 4 }) ∧
    (fits → V.toInt = n) := by
  subst hV
  refine ⟨fun h => ?_, fun h => toInt_ofInt_of_fits32 ((fits32_iff _).mpr h)⟩
  rw [← fits32_iff] at h
  rcases arith_cases f a b d s with ⟨e, k, hraise, -⟩ | ⟨-, _, _, _, ⟨hp, hf, -⟩ | ⟨-, hok⟩⟩
  · exact (hraise.false_of_holds h4 (by simp [ha, hb, hd])).elim
  · simp [hp, hf] at h
  · rw [exec_of_body_ok (hbody.trans hok), State.setPc, State.ofNat_pc_add]
    rfl

/-- An `Add`, `Sub` or `Mul` whose exact result does not fit raises under policy `fault` (R123). -/
theorem exec_arith_overflow (hp : s.params.overflow = .fault)
    (hout : OutOfRange (f (s.readInt ⟨a.toNat, ha⟩) (s.readInt ⟨b.toNat, hb⟩))) :
    exec i s = .next (s.afterFault i .arithOverflow d 4) := by
  rw [← fits32_eq_false_iff] at hout
  rcases arith_cases f a b d s with ⟨e, k, hraise, -⟩ | ⟨-, _, _, _, ⟨-, -, herr⟩ | ⟨hfit, -⟩⟩
  · exact (hraise.false_of_holds h4 (by simp [ha, hb, hd])).elim
  · rw [exec_of_body_error (hbody.trans herr), takeFault_eq_afterFault rfl]
  · simp [hp, hout] at hfit

end

/-- Settles O16: the wrapped exact sum is the 32-bit sum. -/
theorem addResult : Obligations.AddResult := fun _ _ _ _ ha hb hd h4 =>
  exec_arith_result rfl h4 ha hb hd (ofInt_toInt_add _ _)

/-- Settles O17: the wrapped exact difference is the 32-bit difference. -/
theorem subResult : Obligations.SubResult := fun _ _ _ _ ha hb hd h4 =>
  exec_arith_result rfl h4 ha hb hd (ofInt_toInt_sub _ _)

/-- Settles O18: the wrapped exact product is the 32-bit product. -/
theorem mulResult : Obligations.MulResult := fun _ _ _ _ ha hb hd h4 =>
  exec_arith_result rfl h4 ha hb hd (ofInt_toInt_mul _ _)

/-! ## `Div`. -/

/-- Settles O19: outside `-2^31 / -1` the quotient fits, and under policy `wrap` it need not. -/
theorem divResult : Obligations.DivResult := by
  intro s a b d ha hb hd h4 A B hB hexc
  have hB0 : s.readInt ⟨b.toNat, hb⟩ ≠ 0 := mt (s.readInt_eq_zero_iff _).mp hB
  have hq := hexc.imp_right (truncDiv_fits32 (s.readInt_fits32 ⟨a.toNat, ha⟩))
  rw [exec_div_ok h4 ha hb hd hB0 hq, State.setPc, State.ofNat_pc_add]
  simp only [State.readInt, ofInt_truncDiv_toInt, ofInt_truncRem_toInt]
  rfl

/-- Settles O31: the divisor is tested first, before the quotient is formed. -/
theorem divideByZeroRaises : Obligations.DivideByZeroRaises := by
  intro s a b d hb ha hd h4 hzero
  have hB0 := (s.readInt_eq_zero_iff _).mpr hzero
  rcases divide_cases a b d s with ⟨e, k, hraise, -⟩ | ⟨-, _, _, _, ⟨-, herr⟩ | ⟨hne, -⟩ | ⟨hne, -⟩⟩
  · exact (hraise.false_of_holds h4 (by simp [ha, hb, hd])).elim
  · rw [exec_of_body_error (i := .div a b d) herr, takeFault_eq_afterFault rfl]
  · exact absurd hB0 hne
  · exact absurd hB0 hne

/-- `-2^31 / -1` raises under policy `fault` (R125). -/
theorem exec_div_overflow {a b d : Byte} {s : State} (h4 : s.holds 4) (ha : a.toNat < 32) (hb : b.toNat < 32)
    (hd : d.toNat < 32) (hp : s.params.overflow = .fault) (hA : s.readInt ⟨a.toNat, ha⟩ = -2147483648)
    (hB : s.readInt ⟨b.toNat, hb⟩ = -1) :
    exec (.div a b d) s = .next (s.afterFault (.div a b d) .arithOverflow d 4) := by
  have hout : fits32 (truncDiv (s.readInt ⟨a.toNat, ha⟩) (s.readInt ⟨b.toNat, hb⟩)) = false := by
    rw [hA, hB]
    decide
  rcases divide_cases a b d s with ⟨e, k, hraise, -⟩ | ⟨-, _, _, _, ⟨hzero, -⟩ | ⟨-, -, -, herr⟩ | ⟨-, hfit, -⟩⟩
  · exact (hraise.false_of_holds h4 (by simp [ha, hb, hd])).elim
  · simp [hB] at hzero
  · rw [exec_of_body_error (i := .div a b d) herr, takeFault_eq_afterFault rfl]
  · simp [hp, hout] at hfit

/-- Settles O32: the three exact results share one shape, and `-2^31 / -1` is the one quotient that does not fit. -/
theorem arithOverflowRaises : Obligations.ArithOverflowRaises := fun _ _ _ _ ha hb hd h4 hp =>
  ⟨exec_arith_overflow rfl h4 ha hb hd hp, exec_arith_overflow rfl h4 ha hb hd hp, exec_arith_overflow rfl h4 ha hb hd hp,
    exec_div_overflow h4 ha hb hd hp⟩

end Sys2Proof.Machine

/-! PROOFS. Where `Jump`, `JumpF` and `JumpB` lead, and where a jump raises `PcOutOfRange` instead (R130 to R133). -/

namespace Sys2Proof.Machine

/-! ## The program counter a jump writes. -/

/-- A register that is not negative holds as its 32 bits the offset that its signed value names (R11, R130). -/
theorem State.ofNat_readInt_toNat {s : State} {k : RegIdx} (h : 0 ≤ s.readInt k) :
    BitVec.ofNat 32 (s.readInt k).toNat = s.readReg k := by
  rw [← BitVec.ofInt_natCast, Int.toNat_of_nonneg h, State.readInt, BitVec.ofInt_toInt]

/-- A target in range is not cut to 32 bits (R133). -/
theorem toNat_ofNat_of_le_maxPc {t : Int} (h0 : 0 ≤ t) (hmax : t ≤ maxPc) : ((BitVec.ofNat 32 t.toNat).toNat : Int) = t := by
  simp only [maxPc] at hmax
  rw [BitVec.toNat_ofNat, Nat.mod_eq_of_lt (by omega), Int.toNat_of_nonneg h0]

/-! ## What the jumps run. -/

/-- `Jump` is a conditional jump that is always taken (R130, R150). -/
theorem body_jump (r : Byte) (s : State) : Instr.body (.jump r) s = jumpIf true r s := rfl

theorem body_jumpF (r : Byte) (s : State) : Instr.body (.jumpF r) s = jumpBy (fun pc v => (pc : Int) + v) r s := rfl

theorem body_jumpB (r : Byte) (s : State) : Instr.body (.jumpB r) s = jumpBy (fun pc v => (pc : Int) - v) r s := rfl

theorem body_jumpEq_of_cmp (r : Byte) {s : State} (h : s.cmp = true) : Instr.body (.jumpEq r) s = jumpIf true r s := by
  rw [Instr.body, h]

theorem body_jumpNeq_of_mirror (r : Byte) {s : State} (hpolicy : s.params.jumpNeq = .mirror) (h : s.cmp = false) :
    Instr.body (.jumpNeq r) s = jumpIf true r s := by
  simp only [Instr.body, hpolicy, h, Bool.not_false]

section
variable {i : Instr} {r : Byte} {s : State} (h2 : s.holds 2) (hr : r.toNat < 32)

/-- An instruction whose pseudocode raises `PcOutOfRange` has consumed its two bytes (R133, R179). -/
theorem exec_of_body_pcOutOfRange
    (h : Instr.body i s = .error { cause := .pcOutOfRange, info := r, pc := s.pc.toNat + 2 }) :
    exec i s = .next (s.afterFault i .pcOutOfRange r 2) := by
  rw [exec_of_body_error h, takeFault_eq_afterFault rfl]

/-! ## Absolute jumps: `Jump`, and the conditional jumps where they are taken. -/

include h2

/-- An absolute jump that is taken leads to the register's value (R130, R150, R151). -/
theorem exec_jumpIf_taken_result (hbody : Instr.body i s = jumpIf true r s) (hv : 0 ≤ s.readInt ⟨r.toNat, hr⟩) :
    exec i s = .next { s with pc := s.readReg ⟨r.toNat, hr⟩ } := by
  rcases jumpIf_cases true r s with ⟨e, k, hraise, -⟩ | ⟨-, _, ⟨hfalse, -⟩ | ⟨-, hneg, -⟩ | ⟨-, -, hok⟩⟩
  · exact (hraise.false_of_holds h2 (by simp [hr])).elim
  · cases hfalse
  · exact absurd hv (Int.not_le.mpr hneg)
  · rw [exec_of_body_ok (hbody.trans hok), State.setPc, State.ofNat_readInt_toNat hv]

/-- An absolute jump that is taken to a negative register raises (R133). -/
theorem exec_jumpIf_taken_raises (hbody : Instr.body i s = jumpIf true r s) (hv : s.readInt ⟨r.toNat, hr⟩ < 0) :
    exec i s = .next (s.afterFault i .pcOutOfRange r 2) := by
  rcases jumpIf_cases true r s with ⟨e, k, hraise, -⟩ | ⟨-, _, ⟨hfalse, -⟩ | ⟨-, -, herr⟩ | ⟨-, hnonneg, -⟩⟩
  · exact (hraise.false_of_holds h2 (by simp [hr])).elim
  · cases hfalse
  · exact exec_of_body_pcOutOfRange (hbody.trans herr)
  · exact absurd hnonneg (Int.not_le.mpr hv)

/-! ## Relative jumps: `JumpF` and `JumpB`. -/

variable {target : Nat → Int → Int} {t : Int} (hbody : Instr.body i s = jumpBy target r s)
  (ht : target (s.pc.toNat + 2) (s.readInt ⟨r.toNat, hr⟩) = t)
include hbody ht

/-- A relative jump whose distance and target are in range leads to the exact target (R131, R132). -/
theorem exec_jumpBy_result (hv : 0 ≤ s.readInt ⟨r.toNat, hr⟩) (h0 : 0 ≤ t) (hmax : t ≤ maxPc) :
    ∃ p : Addr, (p.toNat : Int) = t ∧ exec i s = .next { s with pc := p } := by
  subst ht
  rcases jumpBy_cases target r s with ⟨e, k, hraise, -⟩ | ⟨-, _, _, rfl, ⟨hout, -⟩ | ⟨-, -, -, hok⟩⟩
  · exact (hraise.false_of_holds h2 (by simp [hr])).elim
  · omega
  · exact ⟨_, toNat_ofNat_of_le_maxPc h0 hmax, exec_of_body_ok (hbody.trans hok)⟩

/-- A relative jump with a negative distance, or to a target out of range, raises (R131, R132, R133). -/
theorem exec_jumpBy_raises (hout : s.readInt ⟨r.toNat, hr⟩ < 0 ∨ t < 0 ∨ (maxPc : Int) < t) :
    exec i s = .next (s.afterFault i .pcOutOfRange r 2) := by
  subst ht
  rcases jumpBy_cases target r s with ⟨e, k, hraise, -⟩ | ⟨-, _, _, rfl, ⟨-, herr⟩ | ⟨hv, h0, hmax, -⟩⟩
  · exact (hraise.false_of_holds h2 (by simp [hr])).elim
  · exact exec_of_body_pcOutOfRange (hbody.trans herr)
  · omega

end

/-! ## The obligations. -/

/-- Settles O22: the target is not below 0, since the distance is not. -/
theorem jumpFResult : Obligations.JumpFResult := by
  intro s r hr h2 hv hmax
  exact exec_jumpBy_result h2 hr (body_jumpF r s) (by simp) hv (by omega) hmax

/-- Settles O23: the target is not below 0, since the distance is at most the offset it is taken from. -/
theorem jumpBResult : Obligations.JumpBResult := by
  intro s r hr h2 hv hle hmax
  exact exec_jumpBy_result h2 hr (body_jumpB r s) (by simp) hv (by omega) hmax

/-- Settles O21: `Jump` is an absolute jump that is always taken. -/
theorem jumpResult : Obligations.JumpResult := fun s r hr h2 hv =>
  exec_jumpIf_taken_result h2 hr (body_jump r s) hv

/-- Settles O33: three taken absolute jumps, and the two relative ones, whose targets can leave the range at one end each. -/
theorem pcOutOfRangeRaises : Obligations.PcOutOfRangeRaises := by
  intro s r hr h2 v
  refine ⟨?jump, fun hout => ?jumpF, fun hout => ?jumpB, fun hcmp => ?jumpEq, fun hpolicy hcmp => ?jumpNeq⟩
  case jump => exact exec_jumpIf_taken_raises h2 hr (body_jump r s)
  case jumpF => exact exec_jumpBy_raises h2 hr (body_jumpF r s) (by simp [v]) (hout.imp_right .inr)
  case jumpB =>
    have hbelow : v < 0 ∨ (s.pc.toNat : Int) + 2 - v < 0 := by omega
    exact exec_jumpBy_raises h2 hr (body_jumpB r s) (by simp [v]) (hbelow.imp_right .inl)
  case jumpEq => exact exec_jumpIf_taken_raises h2 hr (body_jumpEq_of_cmp r hcmp)
  case jumpNeq => exact exec_jumpIf_taken_raises h2 hr (body_jumpNeq_of_mirror r hpolicy hcmp)

end Sys2Proof.Machine

/-! PROOFS. What the six comparisons write to `cmp` (R139 to R145). -/

namespace Sys2Proof.Machine

/-! ## The relations of signed values, said of the 32-bit patterns (R11, R139). -/

theorem relEq_toInt (A B : Word) : relEq A.toInt B.toInt = (A == B) := by
  rw [relEq, beq_eq_decide, decide_eq_decide, BitVec.toInt_inj]

theorem relNotEq_toInt (A B : Word) : relNotEq A.toInt B.toInt = (A != B) := by
  rw [relNotEq, decide_not, bne, ← relEq_toInt, relEq]

theorem relGreater_toInt (A B : Word) : relGreater A.toInt B.toInt = B.slt A := rfl

theorem relLess_toInt (A B : Word) : relLess A.toInt B.toInt = A.slt B := rfl

theorem relGreaterEq_toInt (A B : Word) : relGreaterEq A.toInt B.toInt = B.sle A := rfl

theorem relLessEq_toInt (A B : Word) : relLessEq A.toInt B.toInt = A.sle B := rfl

/-! ## The comparisons. -/

/-- What a comparison that raises nothing answers (R139); the pad byte does not stand in its pseudocode. -/
theorem exec_compareRegs_result {i : Instr} {rel : Int → Int → Bool} {a b : Byte} {s : State} {c : Bool}
    (hbody : Instr.body i s = compareRegs rel a b s) (h4 : s.holds 4) (ha : a.toNat < 32) (hb : b.toNat < 32)
    (hrel : rel (s.readInt ⟨a.toNat, ha⟩) (s.readInt ⟨b.toNat, hb⟩) = c) :
    exec i s = .next { s with cmp := c, pc := s.pc + 4 } := by
  rcases compare_cases rel a b s with ⟨e, k, hraise, -⟩ | ⟨-, _, _, hok⟩
  · exact (hraise.false_of_holds h4 (by simp [ha, hb])).elim
  · rw [exec_of_body_ok (hbody.trans hok), hrel, State.setPc, State.ofNat_pc_add]
    rfl

/-- Settles O24: signed values are the same exactly where the 32-bit patterns are. -/
theorem equalityResults : Obligations.EqualityResults := fun _ _ _ _ ha hb h4 =>
  ⟨exec_compareRegs_result rfl h4 ha hb (relEq_toInt _ _), exec_compareRegs_result rfl h4 ha hb (relNotEq_toInt _ _)⟩

/-- Settles O25: the four orders are those of the signed values, `Greater` and `GreaterEq` with the operands exchanged. -/
theorem orderingResults : Obligations.OrderingResults := fun _ _ _ _ ha hb h4 =>
  ⟨exec_compareRegs_result rfl h4 ha hb (relGreater_toInt _ _), exec_compareRegs_result rfl h4 ha hb (relLess_toInt _ _),
    exec_compareRegs_result rfl h4 ha hb (relGreaterEq_toInt _ _), exec_compareRegs_result rfl h4 ha hb (relLessEq_toInt _ _)⟩

end Sys2Proof.Machine

/-! PROOFS. Where the two conditional jumps lead, and that one that is not taken reads no register (R150, R151). -/

namespace Sys2Proof.Machine

/-! ## What a conditional jump runs where it is not taken. -/

theorem body_jumpEq_of_not_cmp (r : Byte) {s : State} (h : s.cmp = false) :
    Instr.body (.jumpEq r) s = jumpIf false r s := by
  rw [Instr.body, h]

theorem body_jumpNeq_of_mirror_of_cmp (r : Byte) {s : State} (hpolicy : s.params.jumpNeq = .mirror) (h : s.cmp = true) :
    Instr.body (.jumpNeq r) s = jumpIf false r s := by
  simp only [Instr.body, hpolicy, h, Bool.not_true]

/-- A conditional jump that is not taken goes on past its two bytes, whatever the register holds (R150, R151). -/
theorem exec_jumpIf_not_taken_result {i : Instr} {r : Byte} {s : State} (h2 : s.holds 2) (hr : r.toNat < 32)
    (hbody : Instr.body i s = jumpIf false r s) : exec i s = .next { s with pc := s.pc + 2 } := by
  rcases jumpIf_cases false r s with ⟨e, k, hraise, -⟩ | ⟨-, _, ⟨-, hok⟩ | ⟨htrue, -⟩ | ⟨htrue, -⟩⟩
  · exact (hraise.false_of_holds h2 (by simp [hr])).elim
  · rw [exec_of_body_ok (hbody.trans hok), State.setPc, State.ofNat_pc_add]
    rfl
  · cases htrue
  · cases htrue

/-- Settles O26: taken it is an absolute jump, and otherwise it goes on past its two bytes. -/
theorem jumpEqResult : Obligations.JumpEqResult := fun _ r hr h2 =>
  ⟨fun hcmp hv => exec_jumpIf_taken_result h2 hr (body_jumpEq_of_cmp r hcmp) hv,
    fun hcmp => exec_jumpIf_not_taken_result h2 hr (body_jumpEq_of_not_cmp r hcmp)⟩

/-- Settles O27: under policy `mirror` it is `JumpEq` with the two values of `cmp` exchanged. -/
theorem jumpNeqMirrorResult : Obligations.JumpNeqMirrorResult := fun _ r hr hpolicy h2 =>
  ⟨fun hcmp hv => exec_jumpIf_taken_result h2 hr (body_jumpNeq_of_mirror r hpolicy hcmp) hv,
    fun hcmp => exec_jumpIf_not_taken_result h2 hr (body_jumpNeq_of_mirror_of_cmp r hpolicy hcmp)⟩

/-- Settles O28: the pseudocode raises before it fetches the operand byte. -/
theorem jumpNeqBadRaises : Obligations.JumpNeqBadRaises := by
  intro s r hpolicy
  rw [exec_of_body_error (body_of_jumpNeqIsBad ⟨rfl, hpolicy⟩), takeFault_eq_afterFault rfl]
  rfl

/-! ## The register file in a conditional jump that is not taken. -/

/-- The state with this register file. -/
def State.setRegs (s : State) (regs : Vector Word 32) : State := { s with regs := regs }

/-- Not taken, it fetches and checks the index byte and hands the register file on unread (R54, R150). -/
theorem jumpIf_false_setRegs (r : Byte) (s : State) (regs : Vector Word 32) :
    jumpIf false r (s.setRegs regs) = (fun t => t.setRegs regs) <$> jumpIf false r s := by
  simp only [jumpIf, map_bind, Bool.false_eq_true, if_false, map_pure]
  rfl

theorem body_jumpEq_setRegs (r : Byte) {s : State} (regs : Vector Word 32) (h : s.cmp = false) :
    Instr.body (.jumpEq r) (s.setRegs regs) = (fun t => t.setRegs regs) <$> Instr.body (.jumpEq r) s := by
  rw [body_jumpEq_of_not_cmp r h, body_jumpEq_of_not_cmp (s := s.setRegs regs) r h, jumpIf_false_setRegs]

theorem body_jumpNeq_setRegs (r : Byte) {s : State} (regs : Vector Word 32)
    (h : s.params.jumpNeq = .bad ∨ s.cmp = true) :
    Instr.body (.jumpNeq r) (s.setRegs regs) = (fun t => t.setRegs regs) <$> Instr.body (.jumpNeq r) s := by
  cases hpolicy : s.params.jumpNeq with
  | bad =>
    rw [body_of_jumpNeqIsBad (s := s) ⟨rfl, hpolicy⟩, body_of_jumpNeqIsBad (s := s.setRegs regs) ⟨rfl, hpolicy⟩]
    rfl
  | mirror =>
    have hcmp : s.cmp = true := h.resolve_left (by simp [hpolicy])
    rw [body_jumpNeq_of_mirror_of_cmp r hpolicy hcmp,
      body_jumpNeq_of_mirror_of_cmp (s := s.setRegs regs) r hpolicy hcmp, jumpIf_false_setRegs]

/-- Where the pseudocode hands the register file on, so does the instruction, whether it completes or takes a fault. -/
theorem exec_setRegs {i : Instr} {s t : State} {regs : Vector Word 32}
    (hbody : Instr.body i (s.setRegs regs) = (fun t => t.setRegs regs) <$> Instr.body i s) (h : exec i s = .next t) :
    exec i (s.setRegs regs) = .next (t.setRegs regs) := by
  rcases exec_cases h with ⟨hok, -⟩ | ⟨e, herr, rfl⟩
  · rw [hok] at hbody
    exact exec_of_body_ok hbody
  · rw [herr] at hbody
    exact exec_of_body_error hbody

/-- Settles O41: in each of the three cases the pseudocode hands the register file on unread. -/
theorem notTakenReadsNoRegister : Obligations.NotTakenReadsNoRegister := fun _ _ r regs =>
  ⟨fun hcmp => exec_setRegs (body_jumpEq_setRegs r regs hcmp), fun hnot => exec_setRegs (body_jumpNeq_setRegs r regs hnot)⟩

end Sys2Proof.Machine

/-! PROOFS. What `Halt` and the Bad sentinel leave: neither fetches an operand byte (R160, R161). -/

namespace Sys2Proof.Machine

theorem body_halt (s : State) : Instr.body .halt s = .ok ((s.setStatus .halted).setPc s.afterOpcode) := rfl

theorem body_bad (o : Byte) (s : State) :
    Instr.body (.bad o) s = .error { cause := .invalidOpcode, info := o, pc := s.afterOpcode } := rfl

/-- Settles O29: the pseudocode completes, and `pc` one past the opcode byte is the 32-bit successor of `pc`. -/
theorem haltResult : Obligations.HaltResult := by
  intro s
  rw [exec_of_body_ok (body_halt s), State.setPc, State.afterOpcode, State.ofNat_pc_add]
  rfl

/-- Settles O30: the pseudocode raises once its opcode byte is consumed. -/
theorem badRaises : Obligations.BadRaises := by
  intro s o
  rw [exec_of_body_error (body_bad o s), takeFault_eq_afterFault rfl]

end Sys2Proof.Machine

/-! PROOFS. A fault's record fits the instruction that raised it (R172 to R179): each cause is one that the instruction raises
in just such a state, with the `info` byte and the program counter of R173 and R179. -/

namespace Sys2Proof.Machine

/-- The fault taken for a raise of `i` in `s` records what `CauseFits` asks of its cause. -/
def RaiseFits (i : Instr) (s : State) (e : Raised) : Prop :=
  CauseFits i s (takeFault (i.b0 s.params.opmap) e s)
    { cause := e.cause, ipc := s.pc, opbyte := i.b0 s.params.opmap, info := e.info }

/-! ## What each raise has to bring. -/

/-- A raise of the operand fetch fits: the bytes before its place are there and name registers (R53, R54, R176). -/
theorem raiseFits_of_fetchRaise {i : Instr} {s : State} {e : Raised} {k : Nat}
    (hraise : FetchRaise i.regBytes i.opId.length s e k) (hpolicy : ¬ JumpNeqIsBad i s) : RaiseFits i s e := by
  obtain ⟨⟨hk, hn⟩, hbefore, ⟨hend, rfl⟩ | ⟨hthere, b, hb, hbad, rfl⟩⟩ := hraise
  · refine ⟨hpolicy, rfl, k, hk, hn, hend, fun h1 => ?_, fun j c hj => ?_, s.ofNat_pc_add k⟩
    · have hprev := (hbefore (k - 1) (by omega) (by omega)).1
      omega
    · exact (hbefore (j + 1) (by omega) hj).2 c
  · obtain ⟨j, rfl⟩ : ∃ j, k = j + 1 := ⟨k - 1, by omega⟩
    exact ⟨hpolicy, hbad, j, hb, hthere, fun m c hm => (hbefore (m + 1) (by omega) (by omega)).2 c,
      s.ofNat_pc_add (j + 2)⟩

theorem raiseFits_invalidOpcode {i : Instr} {s : State} (hi : i.opId = .bad ∨ JumpNeqIsBad i s) :
    RaiseFits i s { cause := .invalidOpcode, info := i.b0 s.params.opmap, pc := s.afterOpcode } :=
  ⟨hi, rfl, s.ofNat_pc_add 1⟩

theorem raiseFits_divideByZero {a b d : Byte} {s : State} (hops : OperandsTaken (.div a b d) s) (hzero : s.operand b = 0) :
    RaiseFits (.div a b d) s { cause := .divideByZero, info := b, pc := s.pc.toNat + 4 } :=
  ⟨hops, ⟨a, d, rfl⟩, hzero, s.ofNat_pc_add 4⟩

theorem raiseFits_pcOutOfRange {i : Instr} {r : Byte} {s : State} (hops : OperandsTaken i s) (hout : JumpLeavesRange i s r) :
    RaiseFits i s { cause := .pcOutOfRange, info := r, pc := s.pc.toNat + 2 } :=
  ⟨hops, hout, s.ofNat_pc_add 2⟩

theorem raiseFits_arithOverflow {i : Instr} {d : Byte} {s : State} (hops : OperandsTaken i s)
    (hpolicy : s.params.overflow = .fault) (hout : ResultLeavesRange i s d) :
    RaiseFits i s { cause := .arithOverflow, info := d, pc := s.pc.toNat + 4 } :=
  ⟨hops, hpolicy, hout, s.ofNat_pc_add 4⟩

/-! ## What each pseudocode raises. -/

section
variable {i : Instr} {s : State} {e : Raised} (hnot : ¬ JumpNeqIsBad i s) (h : Instr.body i s = .error e)
include hnot h

/-- An absolute jump raises, its operand fetched, only where it is taken to a negative register (R130, R150, R151). -/
theorem raiseFits_of_jumpIf {taken : Bool} {r : Byte} (hbody : Instr.body i s = jumpIf taken r s) (hregs : i.regBytes = [r])
    (hlen : i.opId.length = 2) (hout : taken = true → s.operand r < 0 → JumpLeavesRange i s r) : RaiseFits i s e := by
  rw [hbody] at h
  rcases jumpIf_cases taken r s with ⟨e', k, hraise, h'⟩ | ⟨h2, hr, ⟨-, h'⟩ | ⟨htaken, hneg, h'⟩ | ⟨-, -, h'⟩⟩ <;>
    cases h'.symm.trans h
  · exact raiseFits_of_fetchRaise (by rwa [hregs, hlen]) hnot
  · exact raiseFits_pcOutOfRange ⟨by rwa [hlen], regsNamed_of_one hregs hr, hnot⟩
      (hout htaken (by rwa [State.operand_eq hr]))

/-- A relative jump raises, its operand fetched, for a negative distance or a target out of range (R131, R132, R133). -/
theorem raiseFits_of_jumpBy {target : Nat → Int → Int} {r : Byte} (hbody : Instr.body i s = jumpBy target r s)
    (hregs : i.regBytes = [r]) (hlen : i.opId.length = 2)
    (hout : s.operand r < 0 ∨ target (s.pc.toNat + 2) (s.operand r) < 0 ∨
      (maxPc : Int) < target (s.pc.toNat + 2) (s.operand r) → JumpLeavesRange i s r) : RaiseFits i s e := by
  rw [hbody] at h
  rcases jumpBy_cases target r s with ⟨e', k, hraise, h'⟩ | ⟨h2, hr, t, rfl, ⟨hrange, h'⟩ | ⟨-, -, -, h'⟩⟩ <;>
    cases h'.symm.trans h
  · exact raiseFits_of_fetchRaise (by rwa [hregs, hlen]) hnot
  · exact raiseFits_pcOutOfRange ⟨by rwa [hlen], regsNamed_of_one hregs hr, hnot⟩
      (hout (by rwa [State.operand_eq hr]))

/-- `Add`, `Sub` and `Mul` raise, their operands fetched, only under policy `fault` for a result that does not fit (R123). -/
theorem raiseFits_of_arith {f : Int → Int → Int} {a b d : Byte} (hbody : Instr.body i s = arith f a b d s)
    (hregs : i.regBytes = [a, b, d]) (hlen : i.opId.length = 4)
    (hout : OutOfRange (f (s.operand a) (s.operand b)) → ResultLeavesRange i s d) : RaiseFits i s e := by
  rw [hbody] at h
  rcases arith_cases f a b d s with ⟨e', k, hraise, h'⟩ | ⟨h4, ha, hb, hd, ⟨hpolicy, hfits, h'⟩ | ⟨-, h'⟩⟩ <;>
    cases h'.symm.trans h
  · exact raiseFits_of_fetchRaise (by rwa [hregs, hlen]) hnot
  · refine raiseFits_arithOverflow ⟨by rwa [hlen], regsNamed_of_three hregs ha hb hd, hnot⟩ hpolicy (hout ?_)
    rwa [State.operand_eq ha, State.operand_eq hb, ← fits32_eq_false_iff]

/-- A comparison raises only in fetching its operands (R139). -/
theorem raiseFits_of_compareRegs {rel : Int → Int → Bool} {a b : Byte} (hbody : Instr.body i s = compareRegs rel a b s)
    (hregs : i.regBytes = [a, b]) (hlen : i.opId.length = 4) : RaiseFits i s e := by
  rw [hbody] at h
  rcases compare_cases rel a b s with ⟨e', k, hraise, h'⟩ | ⟨-, _, _, h'⟩ <;> cases h'.symm.trans h
  exact raiseFits_of_fetchRaise (by rwa [hregs, hlen]) hnot

end

/-- `Load` raises only in fetching its operands (R110). -/
theorem raiseFits_load {r : Byte} {imm : Imm} {s : State} {e : Raised} (h : Instr.body (.load r imm) s = .error e) :
    RaiseFits (.load r imm) s e := by
  rcases formRI_cases r s with ⟨e', k, hraise, h'⟩ | ⟨-, _, h'⟩ <;> rw [Instr.body, h'] at h <;> cases h
  exact raiseFits_of_fetchRaise hraise (by nofun)

/-- `Div` raises, its operands fetched, for a zero divisor, and under policy `fault` for `-2^31 / -1`, the only quotient that
does not fit (R124, R125). -/
theorem raiseFits_div {a b d : Byte} {s : State} {e : Raised} (h : Instr.body (.div a b d) s = .error e) :
    RaiseFits (.div a b d) s e := by
  have hnot : ¬ JumpNeqIsBad (.div a b d) s := by nofun
  rw [Instr.body] at h
  rcases divide_cases a b d s with
    ⟨e', k, hraise, h'⟩ | ⟨h4, ha, hb, hd, ⟨hzero, h'⟩ | ⟨-, hpolicy, hfits, h'⟩ | ⟨-, -, h'⟩⟩ <;>
    cases h'.symm.trans h
  · exact raiseFits_of_fetchRaise hraise hnot
  · exact raiseFits_divideByZero ⟨h4, regsNamed_of_three rfl ha hb hd, hnot⟩ (by rwa [State.operand_eq hb])
  · have hmin : s.readInt ⟨a.toNat, ha⟩ = -2147483648 ∧ s.readInt ⟨b.toNat, hb⟩ = -1 := by
      by_contra hexc
      simp [truncDiv_fits32 (s.readInt_fits32 _) hexc] at hfits
    rw [← State.operand_eq ha, ← State.operand_eq hb] at hmin
    exact raiseFits_arithOverflow ⟨h4, regsNamed_of_three rfl ha hb hd, hnot⟩ hpolicy
      ⟨a, b, .inr (.inr (.inr ⟨rfl, hmin⟩))⟩

/-- Whatever an instruction's pseudocode raises fits it: each cites what its shared shape can raise. -/
theorem raiseFits_of_body_error {i : Instr} {s : State} {e : Raised} (h : Instr.body i s = .error e) : RaiseFits i s e := by
  cases i with
  | load r imm => exact raiseFits_load h
  | add a b d => exact raiseFits_of_arith nofun h rfl rfl rfl fun hout => ⟨a, b, .inl ⟨rfl, hout⟩⟩
  | sub a b d => exact raiseFits_of_arith nofun h rfl rfl rfl fun hout => ⟨a, b, .inr (.inl ⟨rfl, hout⟩)⟩
  | mul a b d => exact raiseFits_of_arith nofun h rfl rfl rfl fun hout => ⟨a, b, .inr (.inr (.inl ⟨rfl, hout⟩))⟩
  | div a b d => exact raiseFits_div h
  | jump r => exact raiseFits_of_jumpIf nofun h (body_jump r s) rfl rfl fun _ hneg => .inl ⟨rfl, hneg⟩
  | jumpF r =>
    refine raiseFits_of_jumpBy nofun h (body_jumpF r s) rfl rfl fun hout => .inr (.inl ⟨rfl, ?_⟩)
    push_cast at hout
    omega
  | jumpB r =>
    refine raiseFits_of_jumpBy nofun h (body_jumpB r s) rfl rfl fun hout => .inr (.inr (.inl ⟨rfl, ?_⟩))
    push_cast at hout
    omega
  | eq a b pad | notEq a b pad | greater a b pad | less a b pad | greaterEq a b pad | lessEq a b pad =>
    exact raiseFits_of_compareRegs nofun h rfl rfl rfl
  | jumpEq r =>
    exact raiseFits_of_jumpIf nofun h rfl rfl rfl fun hcmp hneg => .inr (.inr (.inr (.inl ⟨rfl, hcmp, hneg⟩)))
  | jumpNeq r =>
    cases hpolicy : s.params.jumpNeq with
    | bad =>
      have hbad : JumpNeqIsBad (.jumpNeq r) s := ⟨rfl, hpolicy⟩
      cases (body_of_jumpNeqIsBad hbad).symm.trans h
      exact raiseFits_invalidOpcode (.inr hbad)
    | mirror =>
      exact raiseFits_of_jumpIf (by simp [hpolicy]) h (taken := !s.cmp) (by rw [Instr.body, hpolicy]) rfl rfl
        fun hcmp hneg => .inr (.inr (.inr (.inr ⟨rfl, hpolicy, by simpa using hcmp, hneg⟩)))
  | halt => cases h
  | bad o =>
    cases h
    exact raiseFits_invalidOpcode (.inl rfl)

/-- Settles O36: a completion writes no latch but `status` for `Halt`, and a fault taken records a raise that fits. -/
theorem faultsArePreciseAndRecorded : Obligations.FaultsArePreciseAndRecorded := by
  intro i s t h
  rcases exec_cases h with ⟨-, ht⟩ | ⟨e, herr, rfl⟩
  · exact .inl ⟨ht.fault, ht.status⟩
  · exact .inr ⟨_, rfl, rfl, rfl, raiseFits_of_body_error herr⟩

end Sys2Proof.Machine

/-! PROOFS. What a tick returns (R39, R95), and that Halted and Faulted last until the host's reset (R181, R182). -/

namespace Sys2Proof.Machine

theorem tick_of_halted {s : State} (h : s.status = .halted) : tick s = .next (s, .halted) :=
  tick_eq_next_iff.mpr ⟨step_of_not_active (State.active_eq_false_of_status (by simp [h])), by rw [tickOutcome, h]⟩

theorem tick_of_faulted {s : State} {r : FaultRecord} (h : s.status = .faulted) (hr : s.fault = some r) :
    tick s = .next (s, .fault r) :=
  tick_eq_next_iff.mpr ⟨step_of_not_active (State.active_eq_false_of_status (by simp [h])), by rw [tickOutcome, h, hr]⟩

/-- A run from a state that is not Running changes nothing: no tick of it does. -/
theorem run_eq_of_not_running {n : Nat} {s t : State} {o : Option TickOutcome} (hs : s.status ≠ .running)
    (h : run n s = .next (t, o)) : t = s := by
  refine run_preserves (P := fun u => u = s) ?_ rfl h
  rintro u v rfl hstep
  exact step_eq_of_not_running hstep hs

theorem addByte_frame (b : Byte) (s : State) : (addByte b s).1 = { s with code := (addByte b s).1.code } := by
  rcases Nat.lt_or_ge s.len s.params.codeCap with hlt | hge
  · rw [addByte_of_lt b hlt]
  · rw [addByte_of_le b hge]

/-- Settles O43: outside Running no tick executes anything, so only `add_byte` changes a state, and it writes the buffer. -/
theorem terminalStatesAreSticky : Obligations.TerminalStatesAreSticky := by
  refine ⟨fun x s t r hs hx h => ?_, fun s => tick_of_halted, fun s r => tick_of_faulted⟩
  cases x with
  | reset => exact absurd rfl hx
  | addByte b =>
    obtain ⟨⟩ := h
    exact addByte_frame b s
  | tick =>
    obtain ⟨o, htick, -⟩ := transact_tick_eq_next_iff.mp h
    obtain rfl := step_eq_of_not_running (tick_eq_next_iff.mp htick).1 hs
    rfl
  | run n =>
    obtain ⟨o, hrun, -⟩ := transact_run_eq_next_iff.mp h
    obtain rfl := run_eq_of_not_running hs hrun
    rfl
  | inspect =>
    obtain ⟨⟩ := h
    rfl

/-- A tick that finds the program counter at or past the end of the buffer changes nothing (R95, R171). -/
theorem step_eq_of_len_le_pc {s t : State} (h : step s = .next t) (hpc : s.len ≤ s.pc.toNat) : t = s := by
  rcases step_cases h with ⟨-, rfl⟩ | ⟨hactive, -⟩
  · rfl
  · exact absurd ((State.active_iff s).mp hactive).2 (Nat.not_lt.mpr hpc)

/-- Only a step from Running ends in Running (R181). -/
theorem running_of_step_running {s t : State} (h : step s = .next t) (ht : t.status = .running) : s.status = .running := by
  by_contra hs
  exact hs (step_eq_of_not_running h hs ▸ ht)

/-- A tick's outcome in each status that its step can end in (R95). -/
theorem tickOutcome_cases {s t : State} {o : TickOutcome} (h : tickOutcome s t = .next o) :
    (t.status = .running ∧ o = if s.pc.toNat < s.len then .continue else .endOfBuffer) ∨
    (t.status = .halted ∧ o = .halted) ∨ (t.status = .faulted ∧ ∃ r, t.fault = some r ∧ o = .fault r) := by
  rw [tickOutcome] at h
  cases ht : t.status with
  | running => exact .inl ⟨rfl, by simpa [ht] using h.symm⟩
  | halted => exact .inr (.inl ⟨rfl, by simpa [ht] using h.symm⟩)
  | faulted =>
    cases hr : t.fault with
    | none => simp [ht, hr] at h
    | some r => exact .inr (.inr ⟨rfl, r, rfl, by simpa [ht, hr] using h.symm⟩)

/-- Settles O44: the status that the step ends in selects the outcome. A step that ends in Running began so, and one that
leaves Running began before the end of the buffer. -/
theorem tickOutcomes : Obligations.TickOutcomes := by
  intro s hs
  obtain ⟨t, o, htick, -⟩ := tick_answers hs
  obtain ⟨hstep, hout⟩ := tick_eq_next_iff.mp htick
  have hidle (hpc : s.len ≤ s.pc.toNat) : t = s := step_eq_of_len_le_pc hstep hpc
  have hleaves (ht : t.status ≠ .running) (hrun : s.status = .running) : s.pc.toNat < s.len := by
    by_contra hpc
    exact ht (hidle (Nat.le_of_not_lt hpc) ▸ hrun)
  refine ⟨t, o, htick, hstep, ?_⟩
  rcases tickOutcome_cases hout with ⟨ht, rfl⟩ | ⟨ht, rfl⟩ | ⟨ht, r, hr, rfl⟩
  · have hrun := running_of_step_running hstep ht
    rcases Nat.lt_or_ge s.pc.toNat s.len with hlt | hge
    · simp [hlt, hrun, ht]
    · simp [Nat.not_lt.mpr hge, hge, hrun, hidle hge]
  · simpa [ht] using hleaves (by simp [ht])
  · simpa [ht, hr] using hleaves (by simp [ht])

end Sys2Proof.Machine

/-! PROOFS. Loading and feeding: what a sequence of `add_byte`s leaves (R202, R203), and that an instruction which is whole in the
buffer takes no part of what is appended after it (R55, R204). -/

namespace Sys2Proof.Machine

/-! ## Appending several bytes. -/

/-- What every `add_byte` keeps, the appending of a sequence of bytes keeps. -/
theorem addBytes_preserves {P : State → Prop} (hadd : ∀ {u} (b : Byte), P u → P (addByte b u).1) (bs : List Byte) {s : State}
    (h : P s) : P (addBytes bs s) := by
  induction bs generalizing s with
  | nil => exact h
  | cons b bs ih => exact ih (hadd b h)

/-- Appending writes nothing but the code buffer (R38). -/
theorem addBytes_frame (bs : List Byte) (s : State) : addBytes bs s = { s with code := (addBytes bs s).code } := by
  refine addBytes_preserves (P := fun t => t = { s with code := t.code }) (fun {u} b hu => ?_) bs rfl
  rw [addByte_frame b u, hu]

@[simp] theorem addBytes_pc (bs : List Byte) (s : State) : (addBytes bs s).pc = s.pc := by rw [addBytes_frame]

@[simp] theorem addBytes_status (bs : List Byte) (s : State) : (addBytes bs s).status = s.status := by rw [addBytes_frame]

@[simp] theorem addBytes_params (bs : List Byte) (s : State) : (addBytes bs s).params = s.params := by rw [addBytes_frame]

theorem addBytes_wf (bs : List Byte) {s : State} (h : s.code.wf) : (addBytes bs s).code.wf := by
  refine addBytes_preserves (P := fun t => t.code.wf) (fun {u} b hu => ?_) bs h
  rcases Nat.lt_or_ge u.len u.params.codeCap with hlt | hge
  · rw [addByte_of_lt b hlt]
    exact Memory.append_wf b hu
  · rwa [addByte_of_le b hge]

theorem addBytes_inv (bs : List Byte) {s : State} (h : s.Inv) : (addBytes bs s).Inv :=
  addBytes_preserves addByte_inv bs h

/-- Bytes that fit within the capacity all stand behind those that were there, in order (R38, R202). -/
theorem addBytes_bytes {bs : List Byte} {s : State} (h : s.len + bs.length ≤ s.params.codeCap) :
    (addBytes bs s).code.bytes = s.code.bytes ++ bs := by
  induction bs generalizing s with
  | nil => simp [addBytes]
  | cons b bs ih =>
    rw [List.length_cons] at h
    rw [addBytes, addByte_of_lt b (by omega), ih, Memory.append_bytes, List.append_assoc, List.singleton_append]
    simp only [State.len, Memory.append_length] at h ⊢
    omega

/-- Settles O47: the reset buffer is empty, so the bytes of the program are all that stands in it. -/
theorem bootLoadsProgram : Obligations.BootLoadsProgram := by
  intro s bs hfits
  refine ⟨_, rfl, addBytes_frame bs _, addBytes_wf bs Memory.empty_wf, ?_⟩
  rw [addBytes_bytes (by simpa using hfits)]
  rfl

/-- Settles O48: at LEN nothing is executed; the bytes appended there are those of the instruction, and the step runs what
stands at the program counter. -/
theorem appendedInstructionRuns : Obligations.AppendedInstructionRuns := by
  intro s i hs hrun hi hpc hfits
  refine ⟨idleTickChangesNothing s (.inr hpc.ge), ?_⟩
  refine stepRunsDecodedInstr _ i [] (addBytes_inv _ hs) (by rwa [addBytes_status]) hi ?_
  have hlen : s.code.bytes.length = s.pc.toNat := by rw [Memory.bytes_length, hpc, State.len]
  rw [addBytes_bytes (by rwa [encode_length]), addBytes_pc, addBytes_params, List.append_nil, List.drop_left' hlen]

/-! ## A byte appended after a whole instruction. -/

/-- The state with a byte appended to its buffer, whatever the capacity. -/
def State.appendByte (s : State) (c : Byte) : State := { s with code := s.code.append c }

@[simp] theorem State.appendByte_len (s : State) (c : Byte) : (s.appendByte c).len = s.len + 1 :=
  Memory.append_length s.code c

/-- The three operand bytes of a four-byte instruction that is whole in the buffer are below LEN (R204). -/
theorem State.operands_lt_len {s : State} (h : s.holds 4) :
    s.afterOpcode < s.len ∧ s.afterOpcode + 1 < s.len ∧ s.afterOpcode + 2 < s.len := by
  simp only [State.holds, State.afterOpcode] at h ⊢
  omega

/-- `Fetch8` below LEN answers alike after an append, and so does what follows it, if it answers alike one offset further on. -/
theorem fetch8_bind_appendByte {α : Type} {s : State} {pc : Nat} (c : Byte) (h : pc < s.len) {f g : Nat → Exec α}
    (hfg : f (pc + 1) = g (pc + 1)) : fetch8 (s.appendByte c) pc >>= f = fetch8 s pc >>= g := by
  rw [fetch8_ok h, fetch8_ok (by rw [State.appendByte_len]; omega)]
  exact hfg

/-- `FetchReg` likewise, whether the byte names a register or raises (R54). -/
theorem fetchReg_bind_appendByte {α : Type} {s : State} {pc : Nat} {b : Byte} (c : Byte) (h : pc < s.len)
    {f g : OneReg → Exec α} (hfg : ∀ r, f ⟨r, pc + 1⟩ = g ⟨r, pc + 1⟩) :
    fetchReg b (s.appendByte c) pc >>= f = fetchReg b s pc >>= g := by
  have h' : pc < (s.appendByte c).len := by
    rw [State.appendByte_len]
    omega
  rcases Nat.lt_or_ge b.toNat 32 with hb | hb
  · rw [fetchReg_ok h hb, fetchReg_ok h' hb]
    exact hfg _
  · rw [fetchReg_badIndex h hb, fetchReg_badIndex h' hb]
    rfl

section
variable {s : State} (c : Byte)

theorem formR_appendByte {r : Byte} (h : s.holds 2) : formR r (s.appendByte c) = formR r s := by
  have hbind := fetchReg_bind_appendByte (b := r) c h (f := pure) fun _ => rfl
  rwa [bind_pure, bind_pure] at hbind

theorem formRI_appendByte {r : Byte} (h : s.holds 4) : formRI r (s.appendByte c) = formRI r s := by
  obtain ⟨h1, h2, h3⟩ := State.operands_lt_len h
  exact fetchReg_bind_appendByte c h1 fun _ => fetch8_bind_appendByte c h2 (fetch8_bind_appendByte c h3 rfl)

theorem formRRR_appendByte {a b d : Byte} (h : s.holds 4) : formRRR a b d (s.appendByte c) = formRRR a b d s := by
  obtain ⟨h1, h2, h3⟩ := State.operands_lt_len h
  exact fetchReg_bind_appendByte c h1 fun _ => fetchReg_bind_appendByte c h2 fun _ =>
    fetchReg_bind_appendByte c h3 fun _ => rfl

theorem formRRP_appendByte {a b : Byte} (h : s.holds 4) : formRRP a b (s.appendByte c) = formRRP a b s := by
  obtain ⟨h1, h2, h3⟩ := State.operands_lt_len h
  exact fetchReg_bind_appendByte c h1 fun _ => fetchReg_bind_appendByte c h2 fun _ => fetch8_bind_appendByte c h3 rfl

theorem jumpIf_appendByte {taken : Bool} {r : Byte} (h : s.holds 2) :
    jumpIf taken r (s.appendByte c) = (State.appendByte · c) <$> jumpIf taken r s := by
  simp only [jumpIf, formR_appendByte c h, map_bind, map_pure, apply_ite]
  rfl

/-- The pseudocode of an instruction that is whole in the buffer fetches the same operands after an append, and hands the byte
appended on unread. -/
theorem body_appendByte {i : Instr} (h : s.holds i.opId.length) :
    Instr.body i (s.appendByte c) = (State.appendByte · c) <$> Instr.body i s := by
  cases i with
  | load r imm =>
    simp only [Instr.body, formRI_appendByte c h, map_bind, map_pure]
    rfl
  | add a b d | sub a b d | mul a b d =>
    simp only [Instr.body, arith, formRRR_appendByte c h, map_bind, map_pure]
    rfl
  | div a b d =>
    simp only [Instr.body, divide, formRRR_appendByte c h, map_bind, map_pure, apply_ite]
    rfl
  | jump r =>
    simp only [Instr.body, jumpTo, formR_appendByte c h, map_bind, map_pure]
    rfl
  | jumpF r | jumpB r =>
    simp only [Instr.body, jumpBy, formR_appendByte c h, map_bind, map_pure, apply_ite]
    rfl
  | eq a b pad | notEq a b pad | greater a b pad | less a b pad | greaterEq a b pad | lessEq a b pad =>
    simp only [Instr.body, compareRegs, formRRP_appendByte c h, map_bind, map_pure]
    rfl
  | jumpEq r => exact jumpIf_appendByte c h
  | jumpNeq r =>
    have hparams : (s.appendByte c).params = s.params := rfl
    cases hpolicy : s.params.jumpNeq with
    | bad =>
      simp only [Instr.body, hparams, hpolicy]
      rfl
    | mirror =>
      simp only [Instr.body, hparams, hpolicy]
      exact jumpIf_appendByte c h
  | halt => rfl
  | bad o => rfl

end

/-- Settles O49: the pseudocode hands the byte appended on, whether it completes or its raise is taken as a fault. -/
theorem appendCommutesWithExec : Obligations.AppendCommutesWithExec := by
  intro i s t c hwhole h
  have hbody := body_appendByte c hwhole
  rcases exec_cases h with ⟨hok, -⟩ | ⟨e, herr, rfl⟩
  · rw [hok] at hbody
    exact exec_of_body_ok hbody
  · rw [herr] at hbody
    exact exec_of_body_error hbody

end Sys2Proof.Machine
